-- ==== Sys2Proof/Word.lean ====
section
/-! DEFINITION. The machine's word: every datum of CORE is one unsigned byte (R7 `XLEN`, `CELL_WIDTH`; R9). -/

namespace Sys2Proof

/-- One unsigned 8-bit value: a register, a memory cell, `FL`, `pc`, an instruction byte (R9, R40). -/
abbrev Byte := BitVec 8

end Sys2Proof
end

