-- ==== Sys2Proof/Config.lean ====
section
/-! DEFINITION. The implementation parameters of R7. CORE leaves no value free, so there is no opaque constant here. -/

namespace Sys2Proof.Config

/-- `MEM_SIZE`: 256 cells, addresses 0..255 (R7, R32). -/
abbrev memSize : Nat := 256

/-- `NREG`: eight registers, indices 0..7 (R7, R18). -/
abbrev numRegs : Nat := 8

/-- `SP_RESET` (R7, R35; the spec's decision D2): the one parameter a model may vary, at its default. -/
def spReset : Byte := 0xF4

end Sys2Proof.Config
end

