-- ==== Sys2Proof/Machine/State.lean ====
section
/-! DEFINITION. The machine's state as plain data (R17), the reasons an instruction raises a fault, and reset. -/

namespace Sys2Proof.Machine

/-- `RUN`: exactly two states (R29). -/
inductive RunState where
  | halted
  | running
deriving DecidableEq, Repr

/-- The error kinds of R107, in its order. -/
inductive Cause where
  | outOfRangeAddress
  | outOfRangeRegister
  | unknownOpcode
  | divisionByZero
  | unsupportedOperation
  | loadError
deriving DecidableEq, Repr

/-- What `raise <Cause>(info)` carries (R12): the cause and the value recorded in `FINFO`. -/
structure Raise where
  cause : Cause
  info : Nat
deriving DecidableEq, Repr

/-- Reasons a step could end outside the machine's own state. There are NONE: every error of CORE is the fault entry
of R109, which the spec describes whole, so it is a NEXT state (RUN = Halted with the cause recorded). Nobody raises a
value of this type, which is safe. -/
inductive Fault where
deriving DecidableEq, Repr

/-- Reasons the model could give an instruction no meaning. -/
inductive Refusal where
  /-- An arm of `exec` whose instruction has no meaning yet. No arm raises it: all thirteen are modelled. Safe. -/
  | notModelled (mnemonic : String)
deriving DecidableEq, Repr

/-- Memory: the cells that differ from their reset value, as (address, byte) pairs with strictly rising addresses
(`Memory.wf` in Machine/Ops.lean). -/
abbrev Memory := List Host.Cell

/-- A register index that names one of `R0`..`R7` (R18). -/
abbrev RegIdx := Fin Config.numRegs

/-- The architectural state of R17, and the record of output events (which the port itself does not hold). -/
structure State where
  /-- The register file `x[0..7]`; `x[7]` IS the stack pointer, stored once (R18, R21). -/
  regs : Vector Byte 8
  /-- The flags register `FL` (R26). -/
  fl : Byte
  /-- The program counter: the address of the instruction's opcode byte throughout its execution (R24). -/
  pc : Byte
  /-- The run state `RUN` (R29). -/
  run : RunState
  /-- `FCAUSE`: 0, or the code of the fault that ended the run (R31, R107). -/
  fcause : Byte
  /-- `FPC`: the `pc` of the instruction that faulted (R31, R108). -/
  fpc : Byte
  /-- `FINFO`: nine bits, since an out-of-range address may be 256 (R31, R108). -/
  finfo : BitVec 9
  /-- The unified 256-byte memory (R32). -/
  mem : Memory
  /-- The output events delivered to the host so far, oldest first (R95). The model's own record: log entry 1. -/
  out : List Byte
deriving DecidableEq, Repr

/-- The machine right after reset (R35, R122): memory lists nothing, so every cell reads its reset value 0x00. -/
def State.reset : State where
  regs := #v[0, 0, 0, 0, 0, 0, 0, Config.spReset]
  fl := 0
  pc := 0
  run := .halted
  fcause := 0
  fpc := 0
  finfo := 0
  mem := []
  out := []

/-- How a step ends. -/
abbrev Result := Host.Outcome State Fault Refusal

end Sys2Proof.Machine
end

