-- ==== Sys2Proof/Machine/Ops.lean ====
section
/-! DEFINITION. The named operations over memory and registers, and taking a fault, the machine's one exception. -/

namespace Sys2Proof.Machine

/-! ### Narrowing -/

/-- `trunc8(v) = v mod 256`, the non-negative remainder, of an exact integer (R9). -/
def trunc8 (v : Int) : Byte := BitVec.ofInt 8 v

/-! ### Faults -/

/-- The numeric code of a cause (R107). -/
def Cause.code : Cause → Byte
  | .outOfRangeAddress => 1
  | .outOfRangeRegister => 2
  | .unknownOpcode => 3
  | .divisionByZero => 4
  | .unsupportedOperation => 5
  | .loadError => 6

/-- `raise OutOfRangeAddress(addr)`: `FINFO` is the out-of-range address (R39, R108). -/
def raiseAddress (addr : Nat) : Raise := ⟨.outOfRangeAddress, addr⟩

/-- `raise OutOfRangeRegister(value)`: `FINFO` is the offending operand byte (R23, R108). -/
def raiseRegister (f : Byte) : Raise := ⟨.outOfRangeRegister, f.toNat⟩

/-- `raise UnknownOpcode(op)`: `FINFO` is the opcode byte (R71, R108). -/
def raiseOpcode (op : Byte) : Raise := ⟨.unknownOpcode, op.toNat⟩

/-- FAULT ENTRY (R109): the cause's code, the faulting instruction's `pc` and the info are recorded and the core
halts; nothing else changes. There is no return from a fault (R111): only reset clears the record. -/
def takeFault (r : Raise) (s : State) : State :=
  { s with fcause := r.cause.code, fpc := s.pc, finfo := BitVec.ofNat 9 r.info, run := .halted }

/-- Run one instruction atomically (R12, R43, R77): it either makes all its writes, or raises and makes none of
them, and then the fault entry is the only change. -/
def commit (s : State) : Except Raise State → Result
  | .ok t => .next t
  | .error r => .next (takeFault r s)

/-! ### Memory -/

/-- What a cell no one has written reads as: its reset value (R32, R35, R48; the spec's decision D6). -/
def Memory.resetByte : Byte := 0x00

/-- The byte in cell `a` of the list. -/
def Memory.read : Memory → Nat → Byte
  | [], _ => Memory.resetByte
  | (k, v) :: rest, a => if k = a then v else Memory.read rest a

/-- The cells without cell `a`. -/
def Memory.remove : Memory → Nat → Memory
  | [], _ => []
  | (k, v) :: rest, a => if k = a then Memory.remove rest a else (k, v) :: Memory.remove rest a

/-- Insert cell `a` before the first higher address. -/
def Memory.insert : Memory → Nat → Byte → Memory
  | [], a, v => [(a, v)]
  | (k, w) :: rest, a, v => if a < k then (a, v) :: (k, w) :: rest else (k, w) :: Memory.insert rest a v

/-- Set cell `a` to `v`; the reset value leaves the cell unlisted, so equal memories are equal lists. -/
def Memory.write (m : Memory) (a : Nat) (v : Byte) : Memory :=
  if v = Memory.resetByte then m.remove a else (m.remove a).insert a v

/-- The canonical form from address `lo` up. -/
def Memory.wfFrom (lo : Nat) : Memory → Bool
  | [] => true
  | (k, v) :: rest =>
    decide (lo ≤ k) && decide (k < Config.memSize) && decide (v ≠ Memory.resetByte) && Memory.wfFrom (k + 1) rest

/-- The canonical form: addresses in 0..255, strictly rising, no listed cell at its reset value. -/
def Memory.wf (m : Memory) : Bool := m.wfFrom 0

/-- `MemRead(addr, 1)` of the memory controller (R11, R37): an address outside 0..255 raises OutOfRangeAddress. -/
def memRead (m : Memory) (addr : Nat) : Except Raise Byte :=
  if addr < Config.memSize then .ok (m.read addr) else .error (raiseAddress addr)

/-- `MemWrite(addr, 1, v)` (R11, R37): an address outside 0..255 raises OutOfRangeAddress and touches nothing. -/
def memWrite (m : Memory) (addr : Nat) (v : Byte) : Except Raise Memory :=
  if addr < Config.memSize then .ok (m.write addr v) else .error (raiseAddress addr)

/-- Put bytes at ascending addresses from `addr`; a byte that would lie past 255 has no cell and is dropped.
The host's load uses it (R124), which never sends such a byte. -/
def Memory.writeBytes (m : Memory) (addr : Nat) : List Byte → Memory
  | [] => m
  | b :: bs => Memory.writeBytes (if addr < Config.memSize then m.write addr b else m) (addr + 1) bs

/-! ### Registers, `pc` and the output port -/

/-- `SP_INDEX` (R7, R20). -/
def spIdx : RegIdx := 7

/-- `x[i]` (R10). -/
def State.reg (s : State) (i : RegIdx) : Byte := s.regs[i]

/-- `x[i] <- v`; no register is hard-wired or write-protected (R18). -/
def State.setReg (s : State) (i : RegIdx) (v : Byte) : State := { s with regs := s.regs.set i v }

/-- `SP`, which is `x[7]` (R21). -/
def State.sp (s : State) : Byte := s.reg spIdx

/-- `pc <- v`, an address already checked to be 0..255. -/
def State.setPc (s : State) (v : Nat) : State := { s with pc := BitVec.ofNat 8 v }

/-- `emit(v)` (R13, R95): one event, after those already delivered. -/
def State.emit (s : State) (v : Byte) : State := { s with out := s.out ++ [v] }

/-! ### The stack discipline of R46, shared by PUSH, POP, CALL and RET -/

/-- `x[7] <- trunc8(x[7] - 1)`. -/
def State.decSp (s : State) : State := s.setReg spIdx (trunc8 (s.sp.toNat - 1))

/-- `x[7] <- trunc8(x[7] + 1)`. -/
def State.incSp (s : State) : State := s.setReg spIdx (trunc8 (s.sp.toNat + 1))

/-- The address a push stores to: the decremented `SP` (R46). -/
def pushAddress (s : State) : Nat := s.decSp.sp.toNat

/-- The address a pop reads: `SP` (R46). -/
def popAddress (s : State) : Nat := s.sp.toNat

/-- Store `v` at the current `SP`. -/
def storeAtSp (s : State) (v : Byte) : Except Raise State :=
  match memWrite s.mem s.sp.toNat v with
  | .ok m => .ok { s with mem := m }
  | .error r => .error r

end Sys2Proof.Machine
end

