-- ==== Sys2Proof/Machine/Flags.lean ====
section
/-! DEFINITION. The flags register's one code (R26) and its only computation, the unsigned comparison (R87). -/

namespace Sys2Proof.Machine

/-- `FL_EQ` (R26). -/
def flEq : Byte := 0x01

/-- `FL_LT` (R26). -/
def flLt : Byte := 0x02

/-- `FL_GT` (R26). -/
def flGt : Byte := 0x03

/-- The code of `x` compared with `y` as unsigned integers, with no subtraction (R87). -/
def compareCode (x y : Byte) : Byte :=
  if x.toNat = y.toNat then flEq else if x.toNat < y.toNat then flLt else flGt

/-- `FL <- v`, all eight bits (R26, R92). -/
def State.setFl (s : State) (v : Byte) : State := { s with fl := v }

/-- The test of JEQ and JNE: the whole byte equals `FL_EQ` (R27, R103). -/
def State.flagEqual (s : State) : Bool := s.fl == flEq

end Sys2Proof.Machine
end

