-- ==== Sys2Proof/Machine/Operands.lean ====
section
/-! DEFINITION. Every operand form of R55, and the checks on operands and on the next address. -/

namespace Sys2Proof.Machine

/-- A register operand: the whole byte is the index; above 7 it raises OutOfRangeRegister (R23, R56, R74). -/
def regOperand (f : Byte) : Except Raise RegIdx :=
  if h : f.toNat < Config.numRegs then .ok ⟨f.toNat, h⟩ else .error (raiseRegister f)

/-- LDI's immediate: the whole byte, unchanged (R57). -/
def immOperand (imm : Byte) : Byte := imm

/-- `npc = pc + 1 + n`, an unbounded integer, for an instruction with `n` operand bytes (R69, R75). -/
def nextPc (s : State) (n : Nat) : Nat := s.pc.toNat + 1 + n

/-- `advance_check(npc)` (R76). -/
def advanceCheck (npc : Nat) : Except Raise Unit :=
  if npc > 255 then .error (raiseAddress npc) else .ok ()

/-- CALL's own check: its return address must fit in a cell (R100, R78 item 6). -/
def returnAddressCheck (ret : Nat) : Except Raise Unit :=
  if ret > 255 then .error (raiseAddress ret) else .ok ()

end Sys2Proof.Machine
end

