-- ==== Sys2Proof/Machine/Alu.lean ====
section
/-! DEFINITION. The ALU's pure function (R82 to R89) and the instructions that call it: ADD, MUL and CMP. -/

namespace Sys2Proof.Machine

/-- The operation tokens: the five of R82, and any other, which is a contract violation (R88). -/
inductive AluToken where
  | add
  | sub
  | mul
  | div
  | cmp
  | other (token : String)
deriving DecidableEq, Repr

/-- The two errors of the ALU function (R86, R88). -/
inductive AluError where
  | divisionByZero
  | unsupportedOperation
deriving DecidableEq, Repr

/-- `alu(opn, x, y)`: exact integers narrowed by `trunc8`; CMP gives an `FL` code (R82 to R88). No opcode selects SUB
or DIV (R62). -/
def alu (opn : AluToken) (x y : Byte) : Except AluError Byte :=
  match opn with
  | .add => .ok (trunc8 (x.toNat + y.toNat))
  | .sub => .ok (trunc8 (x.toNat - y.toNat))
  | .mul => .ok (trunc8 (x.toNat * y.toNat))
  | .div => if y.toNat = 0 then .error .divisionByZero else .ok (trunc8 (x.toNat / y.toNat : Nat))
  | .cmp => .ok (compareCode x y)
  | .other _ => .error .unsupportedOperation

/-- The fault an ALU error becomes in an instruction whose divisor register is `b` (R86, R108). -/
def aluRaise (b : RegIdx) : AluError → Raise
  | .divisionByZero => ⟨.divisionByZero, b.val⟩
  | .unsupportedOperation => ⟨.unsupportedOperation, 0⟩

/-- `alu(opn, x[a], x[b])` (R82). -/
def aluOnRegs (opn : AluToken) (s : State) (a b : RegIdx) : Except Raise Byte :=
  match alu opn (s.reg a) (s.reg b) with
  | .ok v => .ok v
  | .error e => .error (aluRaise b e)

/-- ADD a,b (R90). -/
def execAdd (a b : Byte) (s : State) : Result :=
  commit s do
    let ra ← regOperand a
    let rb ← regOperand b
    advanceCheck (nextPc s 2)
    let v ← aluOnRegs .add s ra rb
    return (s.setReg ra v).setPc (nextPc s 2)

/-- MUL a,b (R91). -/
def execMul (a b : Byte) (s : State) : Result :=
  commit s do
    let ra ← regOperand a
    let rb ← regOperand b
    advanceCheck (nextPc s 2)
    let v ← aluOnRegs .mul s ra rb
    return (s.setReg ra v).setPc (nextPc s 2)

/-- CMP a,b (R92). -/
def execCmp (a b : Byte) (s : State) : Result :=
  commit s do
    let ra ← regOperand a
    let rb ← regOperand b
    advanceCheck (nextPc s 2)
    let v ← aluOnRegs .cmp s ra rb
    return (s.setFl v).setPc (nextPc s 2)

end Sys2Proof.Machine
end

