-- ==== Sys2Proof/Machine/Control.lean ====
section
/-! DEFINITION. Control transfer and halt: HLT, CALL, RET, JMP, JEQ and JNE. A target is an absolute 8-bit address
from a register, or from the stack for RET (R98). -/

namespace Sys2Proof.Machine

/-- HLT (R99): `pc` keeps the address of this HLT. -/
def execHlt (s : State) : Result := .next { s with run := .halted }

/-- CALL a (R100): the return address check, the push of `pc + 2`, then the jump through `x[a]` read after the push. -/
def execCall (a : Byte) (s : State) : Result :=
  commit s do
    let ra ← regOperand a
    returnAddressCheck (nextPc s 1)
    let t ← storeAtSp s.decSp (trunc8 (nextPc s 1))
    return t.setPc (t.reg ra).toNat

/-- RET (R101). -/
def execRet (s : State) : Result :=
  commit s do
    let target ← memRead s.mem (popAddress s)
    return (s.setPc target.toNat).incSp

/-- JMP a (R102). -/
def execJmp (a : Byte) (s : State) : Result :=
  commit s do
    let ra ← regOperand a
    return s.setPc (s.reg ra).toNat

/-- A conditional jump: the target if taken, else the checked sequential advance (R103, R104). The register is
validated on both paths (R74). -/
def jumpIf (taken : Bool) (a : Byte) (s : State) : Result :=
  commit s do
    let ra ← regOperand a
    if taken then
      return s.setPc (s.reg ra).toNat
    else
      advanceCheck (nextPc s 1)
      return s.setPc (nextPc s 1)

/-- JEQ a (R103): taken when `FL = FL_EQ`. -/
def execJeq (a : Byte) (s : State) : Result := jumpIf s.flagEqual a s

/-- JNE a (R104): taken when `FL ≠ FL_EQ`. -/
def execJne (a : Byte) (s : State) : Result := jumpIf (!s.flagEqual) a s

end Sys2Proof.Machine
end

