-- ==== Sys2Proof/Machine/LoadOutput.lean ====
section
/-! DEFINITION. Load immediate and output: LDI and PRN. -/

namespace Sys2Proof.Machine

/-- LDI a,imm (R93). -/
def execLdi (a imm : Byte) (s : State) : Result :=
  commit s do
    let ra ← regOperand a
    advanceCheck (nextPc s 2)
    return (s.setReg ra (immOperand imm)).setPc (nextPc s 2)

/-- PRN a (R94): one output event carrying the register's value (R95). -/
def execPrn (a : Byte) (s : State) : Result :=
  commit s do
    let ra ← regOperand a
    advanceCheck (nextPc s 1)
    return (s.emit (s.reg ra)).setPc (nextPc s 1)

end Sys2Proof.Machine
end

