-- ==== Sys2Proof/Machine/Stack.lean ====
section
/-! DEFINITION. The stack instructions PUSH and POP. Their writes happen in the order of the spec's pseudocode, which
shows when the operand is `R7` itself (R14; the spec's decision D14). -/

namespace Sys2Proof.Machine

/-- PUSH a (R96): `x[a]` is read after the decrement. -/
def execPush (a : Byte) (s : State) : Result :=
  commit s do
    let ra ← regOperand a
    advanceCheck (nextPc s 1)
    let t ← storeAtSp s.decSp (s.decSp.reg ra)
    return t.setPc (nextPc s 1)

/-- POP a (R97): `x[7]` is read for the increment after the write of `x[a]`. -/
def execPop (a : Byte) (s : State) : Result :=
  commit s do
    let ra ← regOperand a
    advanceCheck (nextPc s 1)
    let v ← memRead s.mem (popAddress s)
    return (s.setReg ra v).incSp.setPc (nextPc s 1)

end Sys2Proof.Machine
end

