-- ==== Sys2Proof/Syntax.lean ====
section
/-! DEFINITION. The thirteen instructions, one constructor per row of spec/opcode_table.json, in the table's order.
An operand is the WHOLE operand byte (R55, R56: "no masking"): a register field may hold 8..255, and the
instruction then raises OutOfRangeRegister (R23). -/

namespace Sys2Proof

/-- The instruction set (R2, R58). `a`, `b` are register-index bytes and `imm` an immediate byte (R55). -/
inductive Instr where
  /-- HLT (R99). -/
  | hlt
  /-- RET (R101). -/
  | ret
  /-- PUSH a (R96). -/
  | push (a : Byte)
  /-- POP a (R97). -/
  | pop (a : Byte)
  /-- PRN a (R94). -/
  | prn (a : Byte)
  /-- CALL a (R100). -/
  | call (a : Byte)
  /-- JMP a (R102). -/
  | jmp (a : Byte)
  /-- JEQ a (R103). -/
  | jeq (a : Byte)
  /-- JNE a (R104). -/
  | jne (a : Byte)
  /-- LDI a,imm (R93). -/
  | ldi (a imm : Byte)
  /-- ADD a,b (R90). -/
  | add (a b : Byte)
  /-- MUL a,b (R91). -/
  | mul (a b : Byte)
  /-- CMP a,b (R92). -/
  | cmp (a b : Byte)
deriving DecidableEq, Repr

end Sys2Proof
end

