-- ==== Sys2Proof/Decode.lean ====
section
/-! DEFINITION. The opcode map of R58, the decoder (total, rejecting by name), and after it the encoder. -/

namespace Sys2Proof

/-- The four instruction formats of R55, each with the instruction its operand bytes make. -/
inductive Form where
  | f0 (i : Instr)
  | f1 (mk : Byte → Instr)
  | f2r (mk : Byte → Byte → Instr)
  | f2i (mk : Byte → Byte → Instr)

/-- One row of the opcode map: the whole opcode byte (mask 0xFF, R59) and the row's format. -/
structure OpcodeRow where
  opcode : Byte
  form : Form

/-- The opcode map: exactly the thirteen rows of R58. -/
def opcodeTable : List OpcodeRow :=
  [ ⟨0b00000001, .f0 .hlt⟩,
    ⟨0b10000010, .f2i .ldi⟩,
    ⟨0b10100010, .f2r .mul⟩,
    ⟨0b10100000, .f2r .add⟩,
    ⟨0b10100111, .f2r .cmp⟩,
    ⟨0b01000111, .f1 .prn⟩,
    ⟨0b01000101, .f1 .push⟩,
    ⟨0b01000110, .f1 .pop⟩,
    ⟨0b01010000, .f1 .call⟩,
    ⟨0b00010001, .f0 .ret⟩,
    ⟨0b01010100, .f1 .jmp⟩,
    ⟨0b01010101, .f1 .jeq⟩,
    ⟨0b01010110, .f1 .jne⟩ ]

/-- The dispatcher's lookup: a match of the whole byte (R59, R71, R79). -/
def lookupOpcode (op : Byte) : Option Form :=
  (opcodeTable.find? (fun r => r.opcode == op)).map (·.form)

/-- `op in OPCODES` of R69. -/
def isOpcode (op : Byte) : Bool := (lookupOpcode op).isSome

/-- `operand_count`: bits 7:6 of the opcode byte (R54, R72). -/
def operandCount (op : Byte) : Nat := (op.extractLsb 7 6).toNat

/-- Why a byte sequence is no instruction. -/
inductive DecodeError where
  /-- No byte at all. -/
  | noOpcode
  /-- The first byte is one of the 243 undefined opcodes (R61). -/
  | unknownOpcode (op : Byte)
  /-- Operand byte `k` (1 or 2) is not there. -/
  | missingOperand (k : Nat)
deriving DecidableEq, Repr

/-- Read one instruction off the front of a byte sequence (opcode first, R8 concatenation order) and return the rest. -/
def decode : List Byte → Except DecodeError (Instr × List Byte)
  | [] => .error .noOpcode
  | op :: rest =>
    match lookupOpcode op with
    | none => .error (.unknownOpcode op)
    | some (.f0 i) => .ok (i, rest)
    | some (.f1 mk) =>
      match rest with
      | [] => .error (.missingOperand 1)
      | a :: rest => .ok (mk a, rest)
    | some (.f2r mk) =>
      match rest with
      | [] => .error (.missingOperand 1)
      | [_] => .error (.missingOperand 2)
      | a :: b :: rest => .ok (mk a b, rest)
    | some (.f2i mk) =>
      match rest with
      | [] => .error (.missingOperand 1)
      | [_] => .error (.missingOperand 2)
      | a :: imm :: rest => .ok (mk a imm, rest)

/-- The opcode byte of an instruction (R66). -/
def Instr.opcode : Instr → Byte
  | .hlt => 0x01
  | .ret => 0x11
  | .push _ => 0x45
  | .pop _ => 0x46
  | .prn _ => 0x47
  | .call _ => 0x50
  | .jmp _ => 0x54
  | .jeq _ => 0x55
  | .jne _ => 0x56
  | .ldi _ _ => 0x82
  | .add _ _ => 0xA0
  | .mul _ _ => 0xA2
  | .cmp _ _ => 0xA7

/-- The operand bytes of an instruction, op_a before op_b (R55). -/
def Instr.operands : Instr → List Byte
  | .hlt => []
  | .ret => []
  | .push a => [a]
  | .pop a => [a]
  | .prn a => [a]
  | .call a => [a]
  | .jmp a => [a]
  | .jeq a => [a]
  | .jne a => [a]
  | .ldi a imm => [a, imm]
  | .add a b => [a, b]
  | .mul a b => [a, b]
  | .cmp a b => [a, b]

/-- The bytes of an instruction, the opcode at the lowest address (R53, R66). -/
def encode (i : Instr) : List Byte := i.opcode :: i.operands

/-- Three bytes, the longest instruction, from a word numbered as the opcode table numbers it: bit 0 is bit 0 of the
opcode byte, and the bits from `nbits` up are 0. -/
def tableWordBytes (nbits w : Nat) : List Byte :=
  let v := w % 2 ^ nbits
  [BitVec.ofNat 8 v, BitVec.ofNat 8 (v / 256), BitVec.ofNat 8 (v / 65536)]

/-- The instruction the decoder reads from a table word. -/
def decodeTableWord (nbits w : Nat) : Option Instr :=
  match decode (tableWordBytes nbits w) with
  | .ok (i, _) => some i
  | .error _ => none

end Sys2Proof
end

