-- ==== Sys2Proof/Machine/Fetch.lean ====
section
/-! DEFINITION. Fetching and decoding the instruction at `pc` (R69 to R73). -/

namespace Sys2Proof.Machine

/-- Read `n` bytes at ascending addresses from the unbounded address `addr`, each through the memory controller, so
that the first address past 255 raises (R73). -/
def fetchBytes (m : Memory) (addr : Nat) : Nat → Except Raise (List Byte)
  | 0 => .ok []
  | n + 1 => do
    let b ← memRead m addr
    let bs ← fetchBytes m (addr + 1) n
    return b :: bs

/-- The instruction's bytes: the opcode, its lookup before any operand fetch (R71), then exactly the operand bytes
that bits 7:6 count (R72). -/
def fetch (s : State) : Except Raise (List Byte) := do
  let op ← memRead s.mem s.pc.toNat
  if isOpcode op then
    let operands ← fetchBytes s.mem (s.pc.toNat + 1) (operandCount op)
    return op :: operands
  else
    throw (raiseOpcode op)

/-- The fault a rejection by the decoder is. `fetch` has already excluded every one of them. -/
def decodeRaise (s : State) : DecodeError → Raise
  | .noOpcode => raiseAddress s.pc.toNat
  | .unknownOpcode op => raiseOpcode op
  | .missingOperand k => raiseAddress (s.pc.toNat + k)

/-- Fetch and decode the instruction at `pc`. -/
def fetchInstr (s : State) : Except Raise Instr := do
  let bytes ← fetch s
  match decode bytes with
  | .ok (i, _) => return i
  | .error e => throw (decodeRaise s e)

/-- The bytes that stand in memory from `pc` up, at most the three of the longest instruction and none past 255. -/
def bytesAtPc (s : State) : List Byte :=
  ((List.range 3).filter (fun k => decide (s.pc.toNat + k < Config.memSize))).map
    (fun k => s.mem.read (s.pc.toNat + k))

end Sys2Proof.Machine
end

