-- ==== Sys2Proof/Machine/Step.lean ====
section
/-! DEFINITION. One step grant (R69, R127), and placing an instruction where the next step fetches it. -/

namespace Sys2Proof.Machine

/-- One step grant. While Halted the grant is not accepted, so it "is ignored and changes nothing" (R68, R123). While
Running the core executes exactly one whole instruction, or takes the fault it raises (R69). -/
def step (s : State) : Host.Outcome State Fault Refusal :=
  match s.run with
  | .halted => .next s
  | .running =>
    match fetchInstr s with
    | .error r => .next (takeFault r s)
    | .ok i => exec i s

/-- The state with an instruction loaded at `pc` and the core started: the host's load and start in one (log entry 2).
At a `pc` of 254 or 255 a byte past 255 has no cell, and the step faults as the spec says. -/
def State.withFetchWord (s : State) (nbits w : Nat) : State :=
  { s with mem := s.mem.writeBytes s.pc.toNat (tableWordBytes nbits w), run := .running }

end Sys2Proof.Machine
end

