-- ==== Sys2Proof/Machine/HostPort.lean ====
section
/-! DEFINITION. Everything the host can do to CORE (R123): reset, load, start, step grant, and the status and debug
reads. A request that is not accepted "is ignored and changes nothing". -/

namespace Sys2Proof.Machine

/-- What a load request carries: an image, or the host parser's report of a malformed line (R124, R125). -/
inductive LoadRequest where
  | image (bytes : List Byte)
  | malformed
deriving DecidableEq, Repr

/-- The requests that can change CORE's state (R123). -/
inductive HostRequest where
  | reset
  | load (r : LoadRequest)
  | start
  | stepGrant
deriving DecidableEq, Repr

/-- Load and start are accepted only while `RUN = Halted` and `FCAUSE = 0` (R123). -/
def State.acceptsLoadAndStart (s : State) : Bool := decide (s.run = .halted) && decide (s.fcause = 0)

/-- Reset (R122): every state element takes its reset value. The events already delivered stay delivered, since the
output port holds no state (R17; log entry 1). -/
def hostReset (s : State) : State := { State.reset with out := s.out }

/-- A failed load (R125): no cell is written, `FCAUSE = 6`, `FPC = 0`, `FINFO = 0`, and `RUN` stays Halted. -/
def recordLoadError (s : State) : State :=
  { s with fcause := Cause.code .loadError, fpc := 0, finfo := 0 }

/-- Load (R124, R125): the image goes to cells 0..n-1 if it fits, and no register, `FL` or `pc` changes. -/
def hostLoad (r : LoadRequest) (s : State) : State :=
  if s.acceptsLoadAndStart then
    match r with
    | .image bytes =>
      if bytes.length ≤ Config.memSize then { s with mem := s.mem.writeBytes 0 bytes } else recordLoadError s
    | .malformed => recordLoadError s
  else s

/-- Start (R126): `RUN <- Running` and nothing else. -/
def hostStart (s : State) : State :=
  if s.acceptsLoadAndStart then { s with run := .running } else s

/-- Serve one request. -/
def serve (q : HostRequest) (s : State) : Result :=
  match q with
  | .reset => .next (hostReset s)
  | .load r => .next (hostLoad r s)
  | .start => .next (hostStart s)
  | .stepGrant => step s

/-- Serve a sequence of requests in order. -/
def serveAll : List HostRequest → State → Result
  | [], s => .next s
  | q :: qs, s =>
    match serve q s with
    | .next t => serveAll qs t
    | .fault r => .fault r
    | .refused r => .refused r

/-! ### Reads: they change no state -/

/-- What a status read returns (R129). -/
structure Status where
  run : RunState
  fcause : Byte
  fpc : Byte
  finfo : BitVec 9
deriving DecidableEq, Repr

/-- The status read (R129). -/
def statusRead (s : State) : Status := ⟨s.run, s.fcause, s.fpc, s.finfo⟩

/-- The three cases a status read tells apart (R129). -/
inductive RunReport where
  | running
  | haltedOrNeverStarted
  | stoppedByFault
deriving DecidableEq, Repr

/-- The case of a status (R129). -/
def Status.report (st : Status) : RunReport :=
  match st.run with
  | .running => .running
  | .halted => if st.fcause = 0 then .haltedOrNeverStarted else .stoppedByFault

/-- A debug read of memory: an address outside 0..255 is not accepted (R130). -/
def debugReadMem (s : State) (addr : Nat) : Option Byte :=
  if addr < Config.memSize then some (s.mem.read addr) else none

/-- A debug read of a register (R130). -/
def debugReadReg (s : State) (i : RegIdx) : Byte := s.reg i

/-- A debug read of `pc` (R130). -/
def debugReadPc (s : State) : Byte := s.pc

/-- A debug read of `FL` (R130). -/
def debugReadFl (s : State) : Byte := s.fl

/-- The trace's "next three memory cells": `mem[pc]`, `mem[pc+1]`, `mem[pc+2]`, for addresses up to 255 (R130). -/
def debugNextCells (s : State) : List Byte := bytesAtPc s

end Sys2Proof.Machine
end

