-- ==== Sys2Proof/WellFormed.lean ====
section
/-! DEFINITION. Which instructions are well formed: every register operand names a register (R56, R74). -/

namespace Sys2Proof

/-- `REGFIELDS` of R69: the operand bytes that are register indices, `a` before `b`. -/
def Instr.regFields : Instr → List Byte
  | .hlt => []
  | .ret => []
  | .push a => [a]
  | .pop a => [a]
  | .prn a => [a]
  | .call a => [a]
  | .jmp a => [a]
  | .jeq a => [a]
  | .jne a => [a]
  | .ldi a _ => [a]
  | .add a b => [a, b]
  | .mul a b => [a, b]
  | .cmp a b => [a, b]

/-- A register-index byte names a register when its whole value is 0..7 (R56). -/
def namesRegister (f : Byte) : Bool := decide (f.toNat < Config.numRegs)

/-- Every register operand is in range. An ill-formed instruction still has a meaning: it raises OutOfRangeRegister. -/
def Instr.wellFormed (i : Instr) : Bool := i.regFields.all namesRegister

end Sys2Proof
end

