-- ==== Sys2Proof/Safety.lean ====
section
/-! DEFINITION. The terms in which claims about the machine are stated: fault entry written out, what an instruction
writes, and the invariant of a state. -/

namespace Sys2Proof.Machine

/-- The operand byte that names register `i` (R56). -/
def regByte (i : RegIdx) : Byte := BitVec.ofNat 8 i.val

/-- The state after the fault entry of R109 with a given code and info, written out. -/
def faulted (s : State) (code : Byte) (info : Nat) : State :=
  { s with fcause := code, fpc := s.pc, finfo := BitVec.ofNat 9 info, run := .halted }

/-- `t` is `s` after some fault entry, so nothing but `RUN` and the fault record changed (R109). -/
def FaultEntered (s t : State) : Prop := ∃ code info, t = faulted s code info

/-- `RUN` and the fault record are as before. -/
def StatusUnchanged (s t : State) : Prop :=
  t.run = s.run ∧ t.fcause = s.fcause ∧ t.fpc = s.fpc ∧ t.finfo = s.finfo

/-- Every byte of memory reads as before. -/
def SameMemory (s t : State) : Prop := ∀ addr, t.mem.read addr = s.mem.read addr

/-- Every register outside `written` is as before. -/
def SameRegsExcept (written : List Nat) (s t : State) : Prop := ∀ r : RegIdx, r.val ∉ written → t.reg r = s.reg r

/-- An instruction starting at 255, or at 254 with two operands, faults at the operand fetch (R73). -/
def OperandFetchFaults (op : Byte) (n : Nat) : Prop :=
  ∀ s : State, s.run = .running → s.mem.read s.pc.toNat = op → 255 < s.pc.toNat + n →
    step s = .next (faulted s 1 256)

/-- The instructions that always continue sequentially (R76), and JEQ or JNE when not taken in `s`. -/
def ContinuesSequentially (s : State) : Instr → Prop
  | .ldi _ _ => True
  | .add _ _ => True
  | .mul _ _ => True
  | .cmp _ _ => True
  | .prn _ => True
  | .push _ => True
  | .pop _ => True
  | .jeq _ => s.fl ≠ 1
  | .jne _ => s.fl = 1
  | .hlt => False
  | .ret => False
  | .call _ => False
  | .jmp _ => False

/-- The fault record is one that CORE can leave (R108, R111, R129): no fault; an operand fetch or advance to 256; a
register byte above 7; an undefined opcode still standing at `FPC`; or a failed load. Codes 4, 5 and 7..255 never occur. -/
def LegalRecord (s : State) : Prop :=
  (s.fcause = 0 ∧ s.fpc = 0 ∧ s.finfo = 0) ∨
  (s.fcause = 1 ∧ s.fpc = s.pc ∧ s.finfo = 256 ∧ 253 ≤ s.fpc.toNat) ∨
  (s.fcause = 2 ∧ s.fpc = s.pc ∧ 8 ≤ s.finfo.toNat ∧ s.finfo.toNat ≤ 255) ∨
  (s.fcause = 3 ∧ s.fpc = s.pc ∧ (s.mem.read s.fpc.toNat).toNat = s.finfo.toNat ∧
    isOpcode (s.mem.read s.fpc.toNat) = false) ∨
  (s.fcause = 6 ∧ s.fpc = 0 ∧ s.finfo = 0)

/-- The invariant of a state: memory in its canonical form; `FL` one of its four values, so bits 7:2 are 0 (R26, R28);
no fault recorded while Running (R109, R126); a legal fault record. -/
structure Inv (s : State) : Prop where
  mem_wf : s.mem.wf = true
  fl_code : s.fl.toNat ≤ 3
  running_clean : s.run = .running → s.fcause = 0
  record_legal : LegalRecord s

end Sys2Proof.Machine
end

