-- ==== Sys2Proof/Certificates/Slice0/Obligations.lean ====
section
/-! DEFINITION. The statements for the provers, from the spec's numbered rules. `faulted s code info` is `s` after the
fault entry of R109; `regByte r` is the operand byte that names register `r`. -/

open Sys2Proof Sys2Proof.Machine

/-! ### Encoding -/

/-- Decoding an encoded instruction gives it back, with every operand byte at every value, and leaves what follows
(R55, R66). Ill-formed register bytes survive too: "A decoder must not reduce the byte to its low 3 bits" (R56). -/
def Obligations.DecodeOfEncodeReturnsTheInstruction : Prop :=
  ∀ (i : Instr) (rest : List Byte), decode (encode i ++ rest) = .ok (i, rest)

/-- What decodes is exactly the instruction's encoding: no two byte sequences stand for one instruction (R59, R63). -/
def Obligations.EncodeOfDecodeReturnsTheBytes : Prop :=
  ∀ (bytes rest : List Byte) (i : Instr), decode bytes = .ok (i, rest) → bytes = encode i ++ rest

/-- The undefined opcode bytes are exactly the ranges R61 lists (the spec's decision D21). -/
def Obligations.UndefinedOpcodesAreTheListedRanges : Prop :=
  ∀ (op : Byte) (rest : List Byte),
    decode (op :: rest) = .error (.unknownOpcode op) ↔
      (op.toNat = 0x00 ∨ (0x02 ≤ op.toNat ∧ op.toNat ≤ 0x10) ∨ (0x12 ≤ op.toNat ∧ op.toNat ≤ 0x44) ∨
        (0x48 ≤ op.toNat ∧ op.toNat ≤ 0x4F) ∨ (0x51 ≤ op.toNat ∧ op.toNat ≤ 0x53) ∨
        (0x57 ≤ op.toNat ∧ op.toNat ≤ 0x81) ∨ (0x83 ≤ op.toNat ∧ op.toNat ≤ 0x9F) ∨ op.toNat = 0xA1 ∨
        (0xA3 ≤ op.toNat ∧ op.toNat ≤ 0xA6) ∨ 0xA8 ≤ op.toNat)

/-- A few words of the spec decode to the instructions they stand for (the examples of R90 to R104). -/
def Obligations.SpecExampleWordsDecode : Prop :=
  decode [0xA0, 0x00, 0x01] = .ok (.add 0 1, []) ∧ decode [0x82, 0x00, 0x08] = .ok (.ldi 0 8, []) ∧
    decode [0x47, 0x00] = .ok (.prn 0, []) ∧ decode [0x46, 0x01] = .ok (.pop 1, []) ∧
    decode [0x50, 0x02] = .ok (.call 2, []) ∧ decode [0x11] = .ok (.ret, []) ∧ decode [0x56, 0x03] = .ok (.jne 3, [])

/-! ### The engine -/

/-- While Running, when the bytes at `pc` decode to an instruction, the step is that instruction's `exec` at this very
state (R69): the model adds nothing around `exec`. Holds of ill-formed instructions too. -/
def Obligations.StepRunsTheDecodedInstruction : Prop :=
  ∀ (s : State) (i : Instr) (rest : List Byte),
    s.run = .running → decode (bytesAtPc s) = .ok (i, rest) → step s = exec i s

/-- A step begun in Running with no fault recorded ends in one of three ways: the instruction completes and RUN stays
Running; HLT completes and RUN becomes Halted; or RUN becomes Halted with FCAUSE ≠ 0. None is made in Halted (R68). -/
def Obligations.StepEndsInOneOfThreeWays : Prop :=
  (∀ s : State, s.run = .running → s.fcause = 0 → ∃ t, step s = .next t ∧
    ((t.run = .running ∧ t.fcause = 0) ∨
      (s.mem.read s.pc.toNat = 0x01 ∧ t = { s with run := .halted }) ∨
      (t.run = .halted ∧ t.fcause ≠ 0))) ∧
  (∀ s : State, s.run = .halted → step s = .next s)

/-- An undefined opcode raises UnknownOpcode before any operand fetch, even at 255: FPC holds pc, FINFO the byte (R71). -/
def Obligations.UnknownOpcodeFaults : Prop :=
  ∀ s : State, s.run = .running → isOpcode (s.mem.read s.pc.toNat) = false →
    step s = .next { s with
      run := .halted
      fcause := 3
      fpc := s.pc
      finfo := BitVec.ofNat 9 (s.mem.read s.pc.toNat).toNat }

/-- A defined opcode with `n` operands raises OutOfRangeAddress(256) exactly when `pc + n > 255`, which happens only at
255 with n ≥ 1 and at 254 with n = 2; otherwise operand byte `k` is the byte at `pc + k` (R73). -/
def Obligations.OperandFetchPast255Faults : Prop :=
  ∀ (s : State) (op : Byte) (n : Nat),
    s.run = .running → s.mem.read s.pc.toNat = op → isOpcode op = true → operandCount op = n →
      (255 < s.pc.toNat + n → step s = .next (faulted s 1 256) ∧
        ((s.pc.toNat = 255 ∧ 1 ≤ n) ∨ (s.pc.toNat = 254 ∧ n = 2))) ∧
      (s.pc.toNat + n ≤ 255 → ∃ i, fetchInstr s = .ok i ∧
        encode i = op :: (List.range n).map (fun k => s.mem.read (s.pc.toNat + (k + 1))))

/-- A register operand byte of 8..255 raises OutOfRangeRegister with the whole byte; `a` is checked before `b`, LDI's
immediate is not checked, and the check does not depend on the path (R23, R74; the last is the spec's decision D12). -/
def Obligations.RegisterByteAboveSevenFaults : Prop :=
  ∀ (s : State) (i : Instr) (f : Byte), i.regFields.find? (fun g => decide (8 ≤ g.toNat)) = some f →
    exec i s = .next (faulted s 2 f.toNat)

/-- Which single fault a step reports, in the order of R78 (the spec's decision D13): unknown opcode, operand fetch at
`pc+1` then `pc+2`, register `a` then `b`, CALL's return address, the sequential advance. -/
def Obligations.FaultPriorityOrder : Prop :=
  ∀ (s : State) (op a b : Byte), s.run = .running → s.mem.read s.pc.toNat = op →
    s.mem.read (s.pc.toNat + 1) = a → s.mem.read (s.pc.toNat + 2) = b →
      (isOpcode op = false → step s = .next (faulted s 3 op.toNat)) ∧
      (isOpcode op = true → 255 < s.pc.toNat + operandCount op → step s = .next (faulted s 1 256)) ∧
      (isOpcode op = true → 1 ≤ operandCount op → s.pc.toNat + operandCount op ≤ 255 → 8 ≤ a.toNat →
        step s = .next (faulted s 2 a.toNat)) ∧
      (op = 0xA0 ∨ op = 0xA2 ∨ op = 0xA7 → s.pc.toNat + 2 ≤ 255 → a.toNat ≤ 7 → 8 ≤ b.toNat →
        step s = .next (faulted s 2 b.toNat)) ∧
      (op = 0x50 → s.pc.toNat = 254 → a.toNat ≤ 7 → step s = .next (faulted s 1 256)) ∧
      (op = 0x45 ∨ op = 0x46 ∨ op = 0x47 ∨ (op = 0x55 ∧ s.fl ≠ 1) ∨ (op = 0x56 ∧ s.fl = 1) → s.pc.toNat = 254 →
        a.toNat ≤ 7 → step s = .next (faulted s 1 256)) ∧
      (op = 0x82 ∨ ((op = 0xA0 ∨ op = 0xA2 ∨ op = 0xA7) ∧ b.toNat ≤ 7) → s.pc.toNat = 253 → a.toNat ≤ 7 →
        step s = .next (faulted s 1 256))

/-- An instruction that continues sequentially adds 1 and the operand count of opcode bits 7:6 to `pc`; past 255 it
raises OutOfRangeAddress of that address and writes nothing else (R72, R76; no wrap is the spec's decision D10).
That `exec` records 257 or 258 at 254 and 255, where no step gets as far, is the model's reading: log entry 9. -/
def Obligations.SequentialAdvanceIsChecked : Prop :=
  ∀ (s : State) (i : Instr), i.wellFormed = true → ContinuesSequentially s i →
    (s.pc.toNat + 1 + operandCount i.opcode ≤ 255 →
      ∃ t, exec i s = .next t ∧ t.pc.toNat = s.pc.toNat + 1 + operandCount i.opcode ∧ StatusUnchanged s t) ∧
    (255 < s.pc.toNat + 1 + operandCount i.opcode →
      exec i s = .next (faulted s 1 (s.pc.toNat + 1 + operandCount i.opcode)))

/-- A running step of a well-formed instruction whose next address is within memory records no fault, whatever the
data in the registers and memory (R78: the faults listed are the only ones). -/
def Obligations.WellFormedInstructionNeverFaults : Prop :=
  ∀ (s : State) (i : Instr) (rest : List Byte), s.run = .running → decode (bytesAtPc s) = .ok (i, rest) →
    i.wellFormed = true → s.pc.toNat + (encode i).length ≤ 255 →
      ∃ t, step s = .next t ∧ t.fcause = s.fcause ∧ t.fpc = s.fpc ∧ t.finfo = s.finfo

/-! ### The instructions, one statement each: what it does, where it faults, how it is encoded

The advance check fails at one address only: 253 with two operands, 254 with one. Above it the operand fetch fails
first (R73), which the `OperandFetchFaults` clause of each statement says of a step. -/

/-- ADD, the whole of R90. -/
def Obligations.AddStoresTheSumModulo256 : Prop :=
  (∀ (s : State) (ra rb : RegIdx),
    (s.pc.toNat + 3 ≤ 255 → exec (.add (regByte ra) (regByte rb)) s = .next { s with
      regs := s.regs.set ra (BitVec.ofNat 8 ((s.reg ra).toNat + (s.reg rb).toNat))
      pc := BitVec.ofNat 8 (s.pc.toNat + 3) }) ∧
    (s.pc.toNat = 253 → exec (.add (regByte ra) (regByte rb)) s = .next (faulted s 1 256)) ∧
    (∀ bad b : Byte, 8 ≤ bad.toNat → exec (.add bad b) s = .next (faulted s 2 bad.toNat)) ∧
    (∀ bad : Byte, 8 ≤ bad.toNat → exec (.add (regByte ra) bad) s = .next (faulted s 2 bad.toNat))) ∧
  OperandFetchFaults 0xA0 2 ∧
  (∀ (a b : Byte) (rest : List Byte), decode (0xA0 :: a :: b :: rest) = .ok (.add a b, rest))

/-- MUL, the whole of R91: the low byte of the product. -/
def Obligations.MulStoresTheLowByteOfTheProduct : Prop :=
  (∀ (s : State) (ra rb : RegIdx),
    (s.pc.toNat + 3 ≤ 255 → exec (.mul (regByte ra) (regByte rb)) s = .next { s with
      regs := s.regs.set ra (BitVec.ofNat 8 ((s.reg ra).toNat * (s.reg rb).toNat))
      pc := BitVec.ofNat 8 (s.pc.toNat + 3) }) ∧
    (s.pc.toNat = 253 → exec (.mul (regByte ra) (regByte rb)) s = .next (faulted s 1 256)) ∧
    (∀ bad b : Byte, 8 ≤ bad.toNat → exec (.mul bad b) s = .next (faulted s 2 bad.toNat)) ∧
    (∀ bad : Byte, 8 ≤ bad.toNat → exec (.mul (regByte ra) bad) s = .next (faulted s 2 bad.toNat))) ∧
  OperandFetchFaults 0xA2 2 ∧
  (∀ (a b : Byte) (rest : List Byte), decode (0xA2 :: a :: b :: rest) = .ok (.mul a b, rest))

/-- CMP, the whole of R92: all eight bits of FL, from the unsigned comparison of the two stored values. -/
def Obligations.CmpWritesTheComparisonCode : Prop :=
  (∀ (s : State) (ra rb : RegIdx),
    (s.pc.toNat + 3 ≤ 255 → exec (.cmp (regByte ra) (regByte rb)) s = .next { s with
      fl := if (s.reg ra).toNat = (s.reg rb).toNat then 0x01
            else if (s.reg ra).toNat < (s.reg rb).toNat then 0x02 else 0x03
      pc := BitVec.ofNat 8 (s.pc.toNat + 3) }) ∧
    (s.pc.toNat = 253 → exec (.cmp (regByte ra) (regByte rb)) s = .next (faulted s 1 256)) ∧
    (∀ bad b : Byte, 8 ≤ bad.toNat → exec (.cmp bad b) s = .next (faulted s 2 bad.toNat)) ∧
    (∀ bad : Byte, 8 ≤ bad.toNat → exec (.cmp (regByte ra) bad) s = .next (faulted s 2 bad.toNat))) ∧
  OperandFetchFaults 0xA7 2 ∧
  (∀ (a b : Byte) (rest : List Byte), decode (0xA7 :: a :: b :: rest) = .ok (.cmp a b, rest))

/-- LDI, the whole of R93: every immediate byte is legal and stored unchanged. -/
def Obligations.LdiStoresTheImmediate : Prop :=
  (∀ (s : State) (ra : RegIdx) (imm : Byte),
    (s.pc.toNat + 3 ≤ 255 → exec (.ldi (regByte ra) imm) s = .next { s with
      regs := s.regs.set ra imm
      pc := BitVec.ofNat 8 (s.pc.toNat + 3) }) ∧
    (s.pc.toNat = 253 → exec (.ldi (regByte ra) imm) s = .next (faulted s 1 256)) ∧
    (∀ bad : Byte, 8 ≤ bad.toNat → exec (.ldi bad imm) s = .next (faulted s 2 bad.toNat))) ∧
  OperandFetchFaults 0x82 2 ∧
  (∀ (a imm : Byte) (rest : List Byte), decode (0x82 :: a :: imm :: rest) = .ok (.ldi a imm, rest))

/-- PRN, the whole of R94: one event after those already emitted; a PRN that faults emits nothing. -/
def Obligations.PrnEmitsTheRegister : Prop :=
  (∀ (s : State) (ra : RegIdx),
    (s.pc.toNat + 2 ≤ 255 → exec (.prn (regByte ra)) s = .next { s with
      out := s.out ++ [s.reg ra]
      pc := BitVec.ofNat 8 (s.pc.toNat + 2) }) ∧
    (s.pc.toNat = 254 → exec (.prn (regByte ra)) s = .next (faulted s 1 256)) ∧
    (∀ bad : Byte, 8 ≤ bad.toNat → exec (.prn bad) s = .next (faulted s 2 bad.toNat))) ∧
  OperandFetchFaults 0x47 1 ∧
  (∀ (a : Byte) (rest : List Byte), decode (0x47 :: a :: rest) = .ok (.prn a, rest))

/-- PUSH, R96: SP is decremented modulo 256, then the register, read AFTER the decrement, is stored at the new SP. The
wrap is the spec's decision D1, the advance check its D10, the order for `PUSH R7` its D14. That `exec` records 257 at
255, where a step faults at the operand fetch with 256, is the model's reading: log entry 9. -/
def Obligations.PushDecrementsAndStores : Prop :=
  (∀ (s : State) (ra : RegIdx),
    (s.pc.toNat + 2 ≤ 255 → exec (.push (regByte ra)) s = .next { s with
      regs := s.regs.set 7 (s.reg 7 - 1)
      mem := s.mem.write (s.reg 7 - 1).toNat (if ra = 7 then s.reg 7 - 1 else s.reg ra)
      pc := BitVec.ofNat 8 (s.pc.toNat + 2) }) ∧
    (255 < s.pc.toNat + 2 → exec (.push (regByte ra)) s = .next (faulted s 1 (s.pc.toNat + 2))) ∧
    (∀ bad : Byte, 8 ≤ bad.toNat → exec (.push bad) s = .next (faulted s 2 bad.toNat))) ∧
  OperandFetchFaults 0x45 1 ∧
  (∀ (a : Byte) (rest : List Byte), decode (0x45 :: a :: rest) = .ok (.push a, rest))

/-- POP, R97: the byte at SP goes to the register, then SP is incremented modulo 256; `POP R7` increments the popped
byte. The wrap is the spec's decision D1, the advance check its D10, the order for `POP R7` its D14. That `exec` records
257 at 255, where a step faults at the operand fetch with 256, is the model's reading: log entry 9. -/
def Obligations.PopLoadsAndIncrements : Prop :=
  (∀ (s : State) (ra : RegIdx),
    (s.pc.toNat + 2 ≤ 255 → exec (.pop (regByte ra)) s = .next { s with
      regs := if ra = 7 then s.regs.set 7 (s.mem.read (s.reg 7).toNat + 1)
              else (s.regs.set ra (s.mem.read (s.reg 7).toNat)).set 7 (s.reg 7 + 1)
      pc := BitVec.ofNat 8 (s.pc.toNat + 2) }) ∧
    (255 < s.pc.toNat + 2 → exec (.pop (regByte ra)) s = .next (faulted s 1 (s.pc.toNat + 2))) ∧
    (∀ bad : Byte, 8 ≤ bad.toNat → exec (.pop bad) s = .next (faulted s 2 bad.toNat))) ∧
  OperandFetchFaults 0x46 1 ∧
  (∀ (a : Byte) (rest : List Byte), decode (0x46 :: a :: rest) = .ok (.pop a, rest))

/-- HLT, the whole of R99: RUN becomes Halted and nothing else changes, `pc` included; legal at every address; a later
start resumes at the same HLT, which halts again on its first step. -/
def Obligations.HltHaltsInPlace : Prop :=
  (∀ s : State, exec .hlt s = .next { s with run := .halted }) ∧
  (∀ s : State, s.run = .running → s.mem.read s.pc.toNat = 0x01 → step s = .next { s with run := .halted }) ∧
  (∀ s : State, s.run = .halted → s.fcause = 0 → s.mem.read s.pc.toNat = 0x01 →
    serveAll [.start, .stepGrant] s = .next s) ∧
  (∀ rest : List Byte, decode (0x01 :: rest) = .ok (.hlt, rest))

/-- CALL, R100: `pc + 2` is pushed and `pc` becomes the register, read AFTER the push. The return-address check is the
spec's decision D11, the order for `CALL R7` its D14, the wrap its D1. That `exec` records 257 at 255, where a step
faults at the operand fetch with 256, is the model's reading: log entry 9. -/
def Obligations.CallPushesTheReturnAddress : Prop :=
  (∀ (s : State) (ra : RegIdx),
    (s.pc.toNat + 2 ≤ 255 → exec (.call (regByte ra)) s = .next { s with
      regs := s.regs.set 7 (s.reg 7 - 1)
      mem := s.mem.write (s.reg 7 - 1).toNat (BitVec.ofNat 8 (s.pc.toNat + 2))
      pc := if ra = 7 then s.reg 7 - 1 else s.reg ra }) ∧
    (255 < s.pc.toNat + 2 → exec (.call (regByte ra)) s = .next (faulted s 1 (s.pc.toNat + 2))) ∧
    (∀ bad : Byte, 8 ≤ bad.toNat → exec (.call bad) s = .next (faulted s 2 bad.toNat))) ∧
  OperandFetchFaults 0x50 1 ∧
  (∀ (a : Byte) (rest : List Byte), decode (0x50 :: a :: rest) = .ok (.call a, rest))

/-- RET, the whole of R101: `pc` becomes the byte at SP, and SP is incremented; it never faults. -/
def Obligations.RetPopsTheProgramCounter : Prop :=
  (∀ s : State, exec .ret s = .next { s with
    regs := s.regs.set 7 (s.reg 7 + 1)
    pc := s.mem.read (s.reg 7).toNat }) ∧
  (∀ s : State, s.run = .running → s.mem.read s.pc.toNat = 0x11 → step s = exec .ret s) ∧
  (∀ rest : List Byte, decode (0x11 :: rest) = .ok (.ret, rest))

/-- JMP, the whole of R102: legal at 254, since it makes no sequential advance. -/
def Obligations.JmpReplacesTheProgramCounter : Prop :=
  (∀ (s : State) (ra : RegIdx), exec (.jmp (regByte ra)) s = .next { s with pc := s.reg ra }) ∧
  (∀ (s : State) (bad : Byte), 8 ≤ bad.toNat → exec (.jmp bad) s = .next (faulted s 2 bad.toNat)) ∧
  OperandFetchFaults 0x54 1 ∧
  (∀ (a : Byte) (rest : List Byte), decode (0x54 :: a :: rest) = .ok (.jmp a, rest))

/-- JEQ, the whole of R103: the target when FL is exactly 0x01, else the checked advance; FL is read, not consumed. -/
def Obligations.JeqJumpsWhenEqual : Prop :=
  (∀ (s : State) (ra : RegIdx),
    (s.fl = 0x01 → exec (.jeq (regByte ra)) s = .next { s with pc := s.reg ra }) ∧
    (s.fl ≠ 0x01 → s.pc.toNat + 2 ≤ 255 →
      exec (.jeq (regByte ra)) s = .next { s with pc := BitVec.ofNat 8 (s.pc.toNat + 2) }) ∧
    (s.fl ≠ 0x01 → s.pc.toNat = 254 → exec (.jeq (regByte ra)) s = .next (faulted s 1 256))) ∧
  (∀ (s : State) (bad : Byte), 8 ≤ bad.toNat → exec (.jeq bad) s = .next (faulted s 2 bad.toNat)) ∧
  OperandFetchFaults 0x55 1 ∧
  (∀ (a : Byte) (rest : List Byte), decode (0x55 :: a :: rest) = .ok (.jeq a, rest))

/-- JNE, the whole of R104: the target for every FL but 0x01, the reset value 0x00 included. -/
def Obligations.JneJumpsWhenNotEqual : Prop :=
  (∀ (s : State) (ra : RegIdx),
    (s.fl ≠ 0x01 → exec (.jne (regByte ra)) s = .next { s with pc := s.reg ra }) ∧
    (s.fl = 0x01 → s.pc.toNat + 2 ≤ 255 →
      exec (.jne (regByte ra)) s = .next { s with pc := BitVec.ofNat 8 (s.pc.toNat + 2) }) ∧
    (s.fl = 0x01 → s.pc.toNat = 254 → exec (.jne (regByte ra)) s = .next (faulted s 1 256))) ∧
  (∀ (s : State) (bad : Byte), 8 ≤ bad.toNat → exec (.jne bad) s = .next (faulted s 2 bad.toNat)) ∧
  OperandFetchFaults 0x56 1 ∧
  (∀ (a : Byte) (rest : List Byte), decode (0x56 :: a :: rest) = .ok (.jne a, rest))

/-! ### Frames, by shape, for every form: operand bytes in range or not, completing or entering a fault -/

/-- LDI, ADD and MUL change no register but `a`, no flag, no byte of memory and no output; RUN and the fault record
change only by a fault entry (R27, R36). -/
def Obligations.RegisterDestinationFrame : Prop :=
  ∀ (s t : State) (a b : Byte) (i : Instr), i = .ldi a b ∨ i = .add a b ∨ i = .mul a b → exec i s = .next t →
    SameRegsExcept [a.toNat] s t ∧ t.fl = s.fl ∧ SameMemory s t ∧ t.out = s.out ∧
      (StatusUnchanged s t ∨ FaultEntered s t)

/-- CMP changes only FL and `pc`, and PRN only the output and `pc`: no register and no byte of memory (R36). -/
def Obligations.CompareAndPrintFrame : Prop :=
  (∀ (s t : State) (a b : Byte), exec (.cmp a b) s = .next t →
    SameRegsExcept [] s t ∧ SameMemory s t ∧ t.out = s.out ∧ (StatusUnchanged s t ∨ FaultEntered s t)) ∧
  (∀ (s t : State) (a : Byte), exec (.prn a) s = .next t →
    SameRegsExcept [] s t ∧ t.fl = s.fl ∧ SameMemory s t ∧ (StatusUnchanged s t ∨ FaultEntered s t))

/-- PUSH and CALL change no register but R7 and no byte of memory but the one at the push address, which is the
decremented SP (R36, R42). -/
def Obligations.StackStoreFrame : Prop :=
  ∀ (s t : State) (a : Byte) (i : Instr), i = .push a ∨ i = .call a → exec i s = .next t →
    SameRegsExcept [7] s t ∧ t.fl = s.fl ∧ t.out = s.out ∧
      (∀ addr, pushAddress s = addr → ∀ other, other ≠ addr → t.mem.read other = s.mem.read other) ∧
      (StatusUnchanged s t ∨ (FaultEntered s t ∧ SameMemory s t ∧ SameRegsExcept [] s t))

/-- POP changes no register but `a` and R7, and RET none but R7; neither changes a flag, memory or output (R36, R42). -/
def Obligations.StackLoadFrame : Prop :=
  (∀ (s t : State) (a : Byte), exec (.pop a) s = .next t →
    SameRegsExcept [a.toNat, 7] s t ∧ t.fl = s.fl ∧ SameMemory s t ∧ t.out = s.out ∧
      (StatusUnchanged s t ∨ FaultEntered s t)) ∧
  (∀ s t : State, exec .ret s = .next t →
    SameRegsExcept [7] s t ∧ t.fl = s.fl ∧ SameMemory s t ∧ t.out = s.out ∧ StatusUnchanged s t)

/-- JMP, JEQ and JNE change only `pc`, or enter a fault; HLT changes only RUN (R36). -/
def Obligations.JumpAndHaltFrame : Prop :=
  (∀ (s t : State) (a : Byte) (i : Instr), i = .jmp a ∨ i = .jeq a ∨ i = .jne a → exec i s = .next t →
    SameRegsExcept [] s t ∧ t.fl = s.fl ∧ SameMemory s t ∧ t.out = s.out ∧
      (StatusUnchanged s t ∨ FaultEntered s t)) ∧
  (∀ s t : State, exec .hlt s = .next t →
    SameRegsExcept [] s t ∧ t.fl = s.fl ∧ SameMemory s t ∧ t.out = s.out ∧ t.pc = s.pc ∧
      t.fcause = s.fcause ∧ t.fpc = s.fpc ∧ t.finfo = s.finfo)

/-! ### Whole-machine rules -/

/-- CMP is the only instruction that writes FL, and JEQ and JNE the only ones that read it, testing only whether it is
0x01: replacing FL by any other value (equal to 0x01 just when FL is, for JEQ and JNE) changes nothing but FL (R27). -/
def Obligations.FlagsWrittenByCmpReadByJumps : Prop :=
  (∀ (s t : State) (i : Instr), exec i s = .next t → t.fl ≠ s.fl → ∃ a b, i = .cmp a b) ∧
  (∀ (s t : State) (i : Instr) (v : Byte),
    ((∃ a, i = .jeq a ∨ i = .jne a) → (v = 0x01 ↔ s.fl = 0x01)) → exec i s = .next t →
      ∃ w, exec i { s with fl := v } = .next { t with fl := w })

/-- RUN changes in exactly three ways besides reset: an accepted start, HLT, and a fault; and a step happens only while
Running (R30). -/
def Obligations.RunChangesOnlyByStartHltOrFault : Prop :=
  (∀ (s t : State) (q : HostRequest), serve q s = .next t → t.run ≠ s.run →
    q = .reset ∨
    (q = .start ∧ s.run = .halted ∧ s.fcause = 0 ∧ t = { s with run := .running }) ∨
    (q = .stepGrant ∧ s.run = .running ∧ s.mem.read s.pc.toNat = 0x01 ∧ t = { s with run := .halted }) ∨
    (q = .stepGrant ∧ s.run = .running ∧ FaultEntered s t)) ∧
  (∀ s : State, s.run = .halted → step s = .next s)

/-- The fault record is written only by a fault entry or a failed load, and cleared only by reset; no instruction reads
it (R31; the registers are the spec's decision D8). -/
def Obligations.FaultRecordIsPrivate : Prop :=
  (∀ (s t : State) (q : HostRequest), serve q s = .next t → q ≠ .reset →
    (t.fcause = s.fcause ∧ t.fpc = s.fpc ∧ t.finfo = s.finfo) ∨
    (q = .stepGrant ∧ FaultEntered s t) ∨
    ((∃ r, q = .load r) ∧ t = { s with fcause := 6, fpc := 0, finfo := 0 })) ∧
  (∀ (s t : State) (i : Instr) (c p : Byte) (f : BitVec 9), exec i s = .next t →
    ∃ c' p' f', exec i { s with fcause := c, fpc := p, finfo := f } =
      .next { t with fcause := c', fpc := p', finfo := f' })

/-- A fault raised during a step writes FCAUSE, FPC, FINFO and RUN and nothing else, and its code is one of the causes
an instruction can raise (R109). The first clause is the entry itself, for every cause but LoadError, which is a host
load's and never a step's (R125), and every info that fits the nine bits of FINFO. -/
def Obligations.FaultEntryIsPrecise : Prop :=
  (∀ (s : State) (r : Raise), r.cause ≠ .loadError → r.info < 512 → commit s (.error r) = .next { s with
    fcause := r.cause.code
    fpc := s.pc
    finfo := BitVec.ofNat 9 r.info
    run := .halted }) ∧
  (∀ s t : State, step s = .next t → s.fcause = 0 → t.fcause ≠ 0 →
    1 ≤ t.fcause.toNat ∧ t.fcause.toNat ≤ 5 ∧ t = faulted s t.fcause t.finfo.toNat)

/-- Only PRN hands a value to the output port: one value, its register's, after those already emitted (R13). -/
def Obligations.OnlyPrnEmits : Prop :=
  ∀ (s t : State) (i : Instr), exec i s = .next t →
    t.out = s.out ∨ ∃ ra : RegIdx, i = .prn (regByte ra) ∧ t.out = s.out ++ [s.reg ra]

/-- JEQ and JNE at one address with one FL value always go opposite ways (R104): one goes to the target, the other on. -/
def Obligations.JeqAndJneGoOppositeWays : Prop :=
  ∀ (s : State) (ra : RegIdx), s.pc.toNat + 2 ≤ 255 →
    ∃ t u, exec (.jeq (regByte ra)) s = .next t ∧ exec (.jne (regByte ra)) s = .next u ∧
      ((t.pc = s.reg ra ∧ u.pc.toNat = s.pc.toNat + 2) ∨ (t.pc.toNat = s.pc.toNat + 2 ∧ u.pc = s.reg ra))

/-- RET right after CALL returns to the instruction after the CALL, `pc + 2`, with every register, SP included, as it
was before the CALL (R100, R101, source property S3), for every register operand and every SP. -/
def Obligations.RetUndoesCall : Prop :=
  ∀ (s : State) (ra : RegIdx), s.pc.toNat + 2 ≤ 255 →
    ∃ t u, exec (.call (regByte ra)) s = .next t ∧ exec .ret t = .next u ∧
      u.pc.toNat = s.pc.toNat + 2 ∧ ∀ r, u.reg r = s.reg r

/-- POP right after PUSH gives the pushed register's value to the popped one and returns SP to its pre-push value
(R96, R97, source property S2), for registers other than SP. -/
def Obligations.PopUndoesPush : Prop :=
  ∀ (s : State) (ra rb : RegIdx), ra ≠ 7 → rb ≠ 7 → s.pc.toNat + 4 ≤ 255 →
    ∃ t u, exec (.push (regByte ra)) s = .next t ∧ exec (.pop (regByte rb)) t = .next u ∧
      u.reg rb = s.reg ra ∧ u.reg 7 = s.reg 7 ∧ ∀ r, r ≠ rb → u.reg r = s.reg r

/-! ### Memory and the ALU -/

/-- An access outside 0..255 raises OutOfRangeAddress of that address, for both primitives, and none inside does (R11). -/
def Obligations.MemoryAccessIsBoundsChecked : Prop :=
  ∀ (m : Memory) (addr : Nat) (v : Byte),
    (255 < addr → memRead m addr = .error ⟨.outOfRangeAddress, addr⟩ ∧
      memWrite m addr v = .error ⟨.outOfRangeAddress, addr⟩) ∧
    (addr ≤ 255 → memRead m addr = .ok (m.read addr) ∧ ∃ m', memWrite m addr v = .ok m' ∧ m'.read addr = v)

/-- A read returns the most recent write to its cell; a write changes only the cell written and keeps the canonical
form, so that writing the same value twice is writing it once (R44, R48). -/
def Obligations.MemoryReadsTheLastWrite : Prop :=
  ∀ (m m' : Memory) (addr : Nat) (v : Byte), memWrite m addr v = .ok m' →
    memRead m' addr = .ok v ∧ (∀ other, other ≠ addr → memRead m' other = memRead m other) ∧
      (m.wf = true → m'.wf = true ∧ memWrite m' addr v = .ok m')

/-- A byte that a PUSH or CALL stores at the address fetched next is the opcode the next step fetches, with nothing
between (R51, derived there; the spec's decision D22): an undefined byte so stored faults at once, a HLT byte halts. -/
def Obligations.NextFetchSeesTheStoredByte : Prop :=
  ∀ (s t : State) (i : Instr) (ra : RegIdx) (v : Byte), s.run = .running → s.pc.toNat + 2 ≤ 255 →
    (i = .push (regByte ra) ∧ v = (if ra = 7 then s.reg 7 - 1 else s.reg ra)) ∨
      (i = .call (regByte ra) ∧ v = BitVec.ofNat 8 (s.pc.toNat + 2)) →
    exec i s = .next t → pushAddress s = t.pc.toNat →
      (isOpcode v = false → step t = .next (faulted t 3 v.toNat)) ∧
      (v = 0x01 → step t = .next { t with run := .halted })

/-- The ALU function on every token (R82 to R88; the wrap is the spec's decision D1): exact results modulo 256, the
unsigned floor quotient, DivisionByZero at a zero divisor, one code of three for CMP, and no other operation. -/
def Obligations.AluComputesModulo256 : Prop :=
  ∀ x y : Byte,
    (∃ r, alu .add x y = .ok r ∧ r.toNat = (x.toNat + y.toNat) % 256) ∧
    (∃ r, alu .sub x y = .ok r ∧ (r.toNat : Int) = ((x.toNat : Int) - y.toNat) % 256) ∧
    (∃ r, alu .mul x y = .ok r ∧ r.toNat = (x.toNat * y.toNat) % 256) ∧
    (y.toNat = 0 → alu .div x y = .error .divisionByZero) ∧
    (y.toNat ≠ 0 → ∃ r, alu .div x y = .ok r ∧ r.toNat = x.toNat / y.toNat) ∧
    (∃ r, alu .cmp x y = .ok r ∧ (r = 1 ↔ x.toNat = y.toNat) ∧ (r = 2 ↔ x.toNat < y.toNat) ∧
      (r = 3 ↔ y.toNat < x.toNat)) ∧
    (∀ token, alu (.other token) x y = .error .unsupportedOperation)

/-! ### Reset and the invariant -/

/-- Every element right after reset (R35). RUN is the source's; the other values are the spec's own decisions D2 to D6
and D8, and the empty event record is the model's (log entry 1). -/
def Obligations.ResetValues : Prop :=
  State.reset.run = .halted ∧ (∀ r : RegIdx, r ≠ 7 → State.reset.reg r = 0x00) ∧ State.reset.reg 7 = 0xF4 ∧
    State.reset.fl = 0x00 ∧ State.reset.pc = 0x00 ∧ State.reset.fcause = 0 ∧ State.reset.fpc = 0 ∧
    State.reset.finfo = 0 ∧ (∀ addr, State.reset.mem.read addr = 0x00) ∧ State.reset.out = []

/-- The invariant holds right after reset. -/
def Obligations.ResetSatisfiesTheInvariant : Prop := Inv State.reset

/-- Every step from every state that meets the invariant answers a state that meets it: memory stays canonical, FL one
of its four values, no fault is recorded while Running, and the fault record one CORE can leave, with FINFO exactly 256
for an address, 8..255 for a register, and the undefined byte still at FPC (R26, R39, R87, R107 to R109). -/
def Obligations.StepKeepsTheInvariant : Prop :=
  ∀ s : State, Inv s → ∃ t, step s = .next t ∧ Inv t

/-- Reset, load and start, accepted or ignored, keep the invariant. -/
def Obligations.HostRequestsKeepTheInvariant : Prop :=
  ∀ (s : State) (q : HostRequest), Inv s → q ≠ .stepGrant → ∃ t, serve q s = .next t ∧ Inv t

/-- From every state that meets the invariant, every sequence of host requests is served to its end, with no refusal,
and leaves a state that meets it. -/
def Obligations.EveryRequestSequenceIsServed : Prop :=
  ∀ (s : State) (qs : List HostRequest), Inv s → ∃ t, serveAll qs s = .next t ∧ Inv t

/-! ### The host interface -/

/-- Reset from any state sets every state element (R122; the values other than RUN are the spec's decisions D2 to D6
and D8). That delivered events stay delivered is the model's choice (log entry 1). -/
def Obligations.ResetReinitialisesEveryElement : Prop :=
  ∀ s : State, ∃ t, serve .reset s = .next t ∧ t.run = .halted ∧ (∀ r : RegIdx, r ≠ 7 → t.reg r = 0x00) ∧
    t.reg 7 = 0xF4 ∧ t.fl = 0x00 ∧ t.pc = 0x00 ∧ t.fcause = 0 ∧ t.fpc = 0 ∧ t.finfo = 0 ∧
    (∀ addr, t.mem.read addr = 0x00) ∧ t.out = s.out

/-- An accepted load that fits puts image byte `i` in cell `i`, leaves every other cell, and changes nothing else
(R124; when it is accepted is the spec's decision D28). -/
def Obligations.LoadWritesTheImageFromZero : Prop :=
  ∀ (s : State) (img : List Byte), s.run = .halted → s.fcause = 0 → img.length ≤ 256 →
    ∃ m, serve (.load (.image img)) s = .next { s with mem := m } ∧
      (∀ (i : Nat) (h : i < img.length), m.read i = img[i]) ∧
      (∀ addr, img.length ≤ addr → m.read addr = s.mem.read addr)

/-- A load that is too large or malformed writes no cell and records LoadError with FPC = 0 and FINFO = 0 (R125, the
spec's decision D28); after it start is ignored. -/
def Obligations.FailedLoadRecordsLoadError : Prop :=
  ∀ (s : State) (r : LoadRequest), s.run = .halted → s.fcause = 0 →
    (r = .malformed ∨ ∃ img, r = .image img ∧ 256 < img.length) →
      ∃ t, serve (.load r) s = .next t ∧ t = { s with fcause := 6, fpc := 0, finfo := 0 } ∧ serve .start t = .next t

/-- An accepted start sets RUN and nothing else, and execution continues at the current `pc` (R126, the spec's decision
D18). -/
def Obligations.StartResumesAtTheCurrentPc : Prop :=
  ∀ s : State, s.run = .halted → s.fcause = 0 →
    serve .start s = .next { s with run := .running } ∧
    (∀ i, fetchInstr s = .ok i → serveAll [.start, .stepGrant] s = exec i { s with run := .running })

/-- A request that is not accepted changes nothing (R123, the spec's decision D17): a step grant while Halted, a start
or load while Running, and everything but reset once a fault is recorded in Halted, so that a fault is sticky (R111). -/
def Obligations.UnacceptedRequestsAreIgnored : Prop :=
  ∀ s : State,
    (s.run = .halted → serve .stepGrant s = .next s) ∧
    (s.run = .running → serve .start s = .next s ∧ ∀ r, serve (.load r) s = .next s) ∧
    (s.run = .halted → s.fcause ≠ 0 → ∀ q : HostRequest, q ≠ .reset → serve q s = .next s)

/-- A status read gives RUN, FCAUSE, FPC and FINFO and tells the three cases of R129 apart. -/
def Obligations.StatusTellsThreeCasesApart : Prop :=
  ∀ s : State, statusRead s = ⟨s.run, s.fcause, s.fpc, s.finfo⟩ ∧
    ((statusRead s).report = .running ↔ s.run = .running) ∧
    ((statusRead s).report = .haltedOrNeverStarted ↔ s.run = .halted ∧ s.fcause = 0) ∧
    ((statusRead s).report = .stoppedByFault ↔ s.run = .halted ∧ s.fcause ≠ 0)

/-- Debug reads give every cell 0..255 and accept no other address; the trace's next cells are `mem[pc]`, `mem[pc+1]`
and `mem[pc+2]`, for addresses up to 255 (R130, the spec's decision D27). -/
def Obligations.DebugReadsShowTheState : Prop :=
  ∀ s : State,
    (∀ addr, (addr ≤ 255 → debugReadMem s addr = some (s.mem.read addr)) ∧
      (255 < addr → debugReadMem s addr = none)) ∧
    (∀ r, debugReadReg s r = s.reg r) ∧ debugReadPc s = s.pc ∧ debugReadFl s = s.fl ∧
    (s.pc.toNat ≤ 253 → debugNextCells s =
      [s.mem.read s.pc.toNat, s.mem.read (s.pc.toNat + 1), s.mem.read (s.pc.toNat + 2)]) ∧
    (s.pc.toNat = 254 → debugNextCells s = [s.mem.read 254, s.mem.read 255]) ∧
    (s.pc.toNat = 255 → debugNextCells s = [s.mem.read 255])
end

