-- ==== Sys2Proof/Laws/Decode.lean ====
section
/-! SUPPORT. What the opcode map and the decoder do. -/

namespace Sys2Proof

/-- The defined opcodes are the thirteen of R58. -/
theorem opcode_cases : ∀ op : Byte, isOpcode op = true →
    op = 0x01 ∨ op = 0x11 ∨ op = 0x45 ∨ op = 0x46 ∨ op = 0x47 ∨ op = 0x50 ∨ op = 0x54 ∨ op = 0x55 ∨ op = 0x56 ∨
      op = 0x82 ∨ op = 0xA0 ∨ op = 0xA2 ∨ op = 0xA7 := by
  decide

/-- No two rows of the map share an opcode byte, so decoding is unambiguous. -/
theorem opcodeTable_distinct : (opcodeTable.map (·.opcode)).Pairwise (· ≠ ·) := by decide

/-- An instruction's opcode byte is defined. -/
@[simp] theorem isOpcode_opcode (i : Instr) : isOpcode i.opcode = true := by
  cases i <;> rfl

/-- Bits 7:6 of an instruction's opcode byte count its operand bytes (R54). -/
theorem operandCount_opcode (i : Instr) : operandCount i.opcode = i.operands.length := by
  cases i <;> simp only [Instr.opcode, Instr.operands, List.length_cons, List.length_nil] <;> rfl

theorem lookupOpcode_none {op : Byte} (h : isOpcode op = false) : lookupOpcode op = none := by
  simpa [isOpcode] using h

/-- The register fields are the operand bytes, but for LDI's immediate. -/
theorem regFields_sublist (i : Instr) : ∀ f ∈ i.regFields, f ∈ i.operands := by
  cases i <;> simp [Instr.regFields, Instr.operands]

end Sys2Proof
end

