-- ==== Sys2Proof/Laws/Memory.lean ====
section
/-! SUPPORT. What memory operations do: read after write, and that every operation keeps the canonical form. -/

namespace Sys2Proof.Machine.Memory

@[simp] theorem read_nil (a : Nat) : Memory.read [] a = resetByte := rfl

theorem read_remove_same (m : Memory) (a : Nat) : (m.remove a).read a = resetByte := by
  induction m with
  | nil => rfl
  | cons c rest ih =>
    obtain ⟨k, w⟩ := c
    by_cases h : k = a <;> simp [Memory.remove, Memory.read, h, ih]

theorem read_remove_other (m : Memory) {a b : Nat} (h : b ≠ a) : (m.remove a).read b = m.read b := by
  induction m with
  | nil => rfl
  | cons c rest ih =>
    obtain ⟨k, w⟩ := c
    by_cases hk : k = a
    · subst hk
      simp [Memory.remove, Memory.read, ih, Ne.symm h]
    · simp [Memory.remove, Memory.read, hk, ih]

/-- Cell `a` is not listed. -/
def Unlisted (m : Memory) (a : Nat) : Prop := ∀ c ∈ m, c.1 ≠ a

theorem remove_unlisted (m : Memory) (a : Nat) : (m.remove a).Unlisted a := by
  induction m with
  | nil => simp [Unlisted, Memory.remove]
  | cons c rest ih =>
    obtain ⟨k, w⟩ := c
    by_cases hk : k = a
    · simpa [Memory.remove, hk] using ih
    · simpa [Unlisted, Memory.remove, hk] using ih

theorem read_insert_same (m : Memory) (a : Nat) (v : Byte) (h : m.Unlisted a) : (m.insert a v).read a = v := by
  induction m with
  | nil => simp [Memory.insert, Memory.read]
  | cons c rest ih =>
    obtain ⟨k, w⟩ := c
    simp only [Unlisted, List.mem_cons, forall_eq_or_imp] at h
    by_cases hk : a < k
    · simp [Memory.insert, Memory.read, hk]
    · simp [Memory.insert, Memory.read, hk, h.1, ih h.2]

theorem read_insert_other (m : Memory) {a b : Nat} (v : Byte) (h : b ≠ a) : (m.insert a v).read b = m.read b := by
  induction m with
  | nil => simp [Memory.insert, Memory.read, Ne.symm h]
  | cons c rest ih =>
    obtain ⟨k, w⟩ := c
    by_cases hk : a < k
    · simp [Memory.insert, Memory.read, hk, Ne.symm h]
    · simp [Memory.insert, Memory.read, hk, ih]

/-- A read after a write to the same cell gives the value written, whatever the list. -/
@[simp] theorem read_write_same (m : Memory) (a : Nat) (v : Byte) : (m.write a v).read a = v := by
  by_cases hv : v = resetByte
  · simp [Memory.write, hv, read_remove_same]
  · simp [Memory.write, hv, read_insert_same _ _ _ (remove_unlisted m a)]

/-- A write leaves every other cell alone. -/
theorem read_write_other (m : Memory) {a b : Nat} (v : Byte) (h : b ≠ a) : (m.write a v).read b = m.read b := by
  by_cases hv : v = resetByte
  · simp [Memory.write, hv, read_remove_other _ h]
  · simp [Memory.write, hv, read_insert_other _ _ h, read_remove_other _ h]

theorem wfFrom_cons (lo k : Nat) (v : Byte) (rest : Memory) :
    wfFrom lo ((k, v) :: rest) = true ↔
      lo ≤ k ∧ k < Config.memSize ∧ v ≠ resetByte ∧ wfFrom (k + 1) rest = true := by
  simp [wfFrom, and_assoc]

theorem wfFrom_mono {lo lo' : Nat} (m : Memory) (h : lo' ≤ lo) (hm : m.wfFrom lo = true) : m.wfFrom lo' = true := by
  cases m with
  | nil => rfl
  | cons c rest =>
    rw [wfFrom_cons] at hm ⊢
    exact ⟨h.trans hm.1, hm.2⟩

theorem wfFrom_remove (m : Memory) (a lo : Nat) (h : m.wfFrom lo = true) : (m.remove a).wfFrom lo = true := by
  induction m generalizing lo with
  | nil => rfl
  | cons c rest ih =>
    obtain ⟨k, w⟩ := c
    rw [wfFrom_cons] at h
    by_cases hk : k = a
    · simpa [Memory.remove, hk] using wfFrom_mono _ (by omega) (ih _ h.2.2.2)
    · simpa [Memory.remove, hk, wfFrom_cons] using ⟨h.1, h.2.1, h.2.2.1, ih _ h.2.2.2⟩

theorem wfFrom_insert (m : Memory) {a lo : Nat} {v : Byte} (h : m.wfFrom lo = true) (hu : m.Unlisted a)
    (hlo : lo ≤ a) (ha : a < Config.memSize) (hv : v ≠ resetByte) : (m.insert a v).wfFrom lo = true := by
  induction m generalizing lo with
  | nil =>
    simp only [Memory.insert, wfFrom_cons]
    exact ⟨hlo, ha, hv, rfl⟩
  | cons c rest ih =>
    obtain ⟨k, w⟩ := c
    simp only [Unlisted, List.mem_cons, forall_eq_or_imp] at hu
    rw [wfFrom_cons] at h
    by_cases hk : a < k
    · simp only [Memory.insert, hk, if_true, wfFrom_cons]
      exact ⟨hlo, ha, hv, hk, h.2⟩
    · simp only [Memory.insert, hk, if_false, wfFrom_cons]
      exact ⟨h.1, h.2.1, h.2.2.1, ih h.2.2.2 hu.2 (by omega)⟩

/-- A cell below the canonical range reads its reset value. -/
theorem read_below (m : Memory) {lo a : Nat} (h : m.wfFrom lo = true) (ha : a < lo) : m.read a = resetByte := by
  induction m generalizing lo with
  | nil => rfl
  | cons c rest ih =>
    obtain ⟨k, w⟩ := c
    rw [wfFrom_cons] at h
    rw [Memory.read, if_neg (by omega)]
    exact ih h.2.2.2 (by omega)

/-- Equal memories are equal data: two canonical lists that read alike are the same list. -/
theorem eq_of_read_eq (m m' : Memory) {lo : Nat} (h : m.wfFrom lo = true) (h' : m'.wfFrom lo = true)
    (hr : ∀ a, m.read a = m'.read a) : m = m' := by
  induction m generalizing m' lo with
  | nil =>
    cases m' with
    | nil => rfl
    | cons c rest =>
      obtain ⟨k, w⟩ := c
      rw [wfFrom_cons] at h'
      exact absurd (by simpa [Memory.read] using (hr k).symm) h'.2.2.1
  | cons c rest ih =>
    obtain ⟨k, w⟩ := c
    rw [wfFrom_cons] at h
    cases m' with
    | nil => exact absurd (by simpa [Memory.read] using hr k) h.2.2.1
    | cons c' rest' =>
      obtain ⟨k', w'⟩ := c'
      rw [wfFrom_cons] at h'
      have hk : k = k' := by
        rcases Nat.lt_trichotomy k k' with hlt | heq | hgt
        · have := hr k
          rw [Memory.read, if_pos rfl, Memory.read, if_neg (by omega), read_below rest' h'.2.2.2 (by omega)] at this
          exact absurd this h.2.2.1
        · exact heq
        · have := hr k'
          rw [Memory.read, if_neg (by omega), Memory.read, if_pos rfl, read_below rest h.2.2.2 (by omega)] at this
          exact absurd this.symm h'.2.2.1
      subst hk
      have hw : w = w' := by simpa [Memory.read] using hr k
      subst hw
      rw [ih rest' h.2.2.2 h'.2.2.2 ?_]
      intro a
      by_cases ha : a = k
      · subst ha
        rw [read_below rest h.2.2.2 (by omega), read_below rest' h'.2.2.2 (by omega)]
      · have := hr a
        rwa [Memory.read, if_neg (Ne.symm ha), Memory.read, if_neg (Ne.symm ha)] at this

/-- A write to an existing cell keeps the canonical form. -/
theorem wf_write (m : Memory) {a : Nat} (v : Byte) (h : m.wf = true) (ha : a < Config.memSize) :
    (m.write a v).wf = true := by
  by_cases hv : v = resetByte
  · simpa [Memory.write, hv, Memory.wf] using wfFrom_remove m a 0 h
  · simpa [Memory.write, hv, Memory.wf] using
      wfFrom_insert _ (wfFrom_remove m a 0 h) (remove_unlisted m a) (Nat.zero_le a) ha hv

/-- Placing bytes keeps the canonical form. -/
theorem wf_writeBytes (m : Memory) (addr : Nat) (bs : List Byte) (h : m.wf = true) :
    (m.writeBytes addr bs).wf = true := by
  induction bs generalizing m addr with
  | nil => exact h
  | cons b bs ih =>
    unfold Memory.writeBytes
    refine ih _ _ ?_
    split
    · exact wf_write m b h ‹_›
    · exact h

/-- Bytes placed from `addr` leave every cell outside them alone. -/
theorem read_writeBytes_outside (m : Memory) (addr : Nat) (bs : List Byte) {b : Nat}
    (h : b < addr ∨ addr + bs.length ≤ b) : (m.writeBytes addr bs).read b = m.read b := by
  induction bs generalizing m addr with
  | nil => rfl
  | cons c cs ih =>
    simp only [List.length_cons] at h
    unfold Memory.writeBytes
    rw [ih _ _ (by omega)]
    split
    · exact read_write_other m c (by omega)
    · rfl

/-- Bytes placed from `addr` are read back at ascending addresses. -/
theorem read_writeBytes_inside (m : Memory) (addr : Nat) (bs : List Byte) (i : Nat) (hi : i < bs.length)
    (hfit : addr + bs.length ≤ Config.memSize) : (m.writeBytes addr bs).read (addr + i) = bs[i] := by
  induction bs generalizing m addr i with
  | nil => simp at hi
  | cons c cs ih =>
    simp only [List.length_cons] at hi hfit
    unfold Memory.writeBytes
    rw [if_pos (by omega)]
    cases i with
    | zero => rw [read_writeBytes_outside _ _ _ (by omega)]; simp
    | succ n =>
      have := ih (m.write addr c) (addr + 1) n (by omega) (by omega)
      simpa [Nat.add_assoc, Nat.add_comm 1 n] using this

end Sys2Proof.Machine.Memory

namespace Sys2Proof.Machine

open Memory

theorem memRead_ok {m : Memory} {a : Nat} (h : a < Config.memSize) : memRead m a = .ok (m.read a) := if_pos h

theorem memRead_error {m : Memory} {a : Nat} (h : Config.memSize ≤ a) : memRead m a = .error (raiseAddress a) :=
  if_neg (by omega)

theorem memWrite_ok {m : Memory} {a : Nat} {v : Byte} (h : a < Config.memSize) :
    memWrite m a v = .ok (m.write a v) := if_pos h

theorem memWrite_error {m : Memory} {a : Nat} {v : Byte} (h : Config.memSize ≤ a) :
    memWrite m a v = .error (raiseAddress a) := if_neg (by omega)

/-- A byte is always an address (R39). -/
theorem byte_isAddress (b : Byte) : b.toNat < Config.memSize := b.isLt

@[simp] theorem memRead_byte (m : Memory) (b : Byte) : memRead m b.toNat = .ok (m.read b.toNat) :=
  memRead_ok (byte_isAddress b)

@[simp] theorem memWrite_byte (m : Memory) (b v : Byte) : memWrite m b.toNat v = .ok (m.write b.toNat v) :=
  memWrite_ok (byte_isAddress b)

end Sys2Proof.Machine
end

