-- ==== Sys2Proof/Laws/State.lean ====
section
/-! SUPPORT. One lemma per field per update, so that no proof unfolds a record update. -/

namespace Sys2Proof.Machine.State

variable (s : State) (i j : RegIdx) (v : Byte) (n : Nat) (m : Memory) (r : Raise)

/-! ### setReg -/
@[simp] theorem setReg_fl : (s.setReg i v).fl = s.fl := rfl
@[simp] theorem setReg_pc : (s.setReg i v).pc = s.pc := rfl
@[simp] theorem setReg_run : (s.setReg i v).run = s.run := rfl
@[simp] theorem setReg_fcause : (s.setReg i v).fcause = s.fcause := rfl
@[simp] theorem setReg_fpc : (s.setReg i v).fpc = s.fpc := rfl
@[simp] theorem setReg_finfo : (s.setReg i v).finfo = s.finfo := rfl
@[simp] theorem setReg_mem : (s.setReg i v).mem = s.mem := rfl
@[simp] theorem setReg_out : (s.setReg i v).out = s.out := rfl
@[simp] theorem setReg_regs : (s.setReg i v).regs = s.regs.set i v := rfl

@[simp] theorem reg_setReg_same : (s.setReg i v).reg i = v := by simp [State.reg]

theorem reg_setReg : (s.setReg i v).reg j = if i = j then v else s.reg j := by
  simp only [State.reg, setReg_regs, Fin.getElem_fin, Vector.getElem_set, Fin.ext_iff]

theorem reg_setReg_other (h : i ≠ j) : (s.setReg i v).reg j = s.reg j := by
  rw [reg_setReg, if_neg h]

/-! ### setPc -/
@[simp] theorem setPc_reg : (s.setPc n).reg i = s.reg i := rfl
@[simp] theorem setPc_regs : (s.setPc n).regs = s.regs := rfl
@[simp] theorem setPc_fl : (s.setPc n).fl = s.fl := rfl
@[simp] theorem setPc_pc : (s.setPc n).pc = BitVec.ofNat 8 n := rfl
@[simp] theorem setPc_run : (s.setPc n).run = s.run := rfl
@[simp] theorem setPc_fcause : (s.setPc n).fcause = s.fcause := rfl
@[simp] theorem setPc_fpc : (s.setPc n).fpc = s.fpc := rfl
@[simp] theorem setPc_finfo : (s.setPc n).finfo = s.finfo := rfl
@[simp] theorem setPc_mem : (s.setPc n).mem = s.mem := rfl
@[simp] theorem setPc_out : (s.setPc n).out = s.out := rfl

/-- A byte is always a legal target, unchanged (R98). -/
theorem setPc_byte (b : Byte) : s.setPc b.toNat = { s with pc := b } := by simp [State.setPc]

/-! ### setFl -/
@[simp] theorem setFl_reg : (s.setFl v).reg i = s.reg i := rfl
@[simp] theorem setFl_regs : (s.setFl v).regs = s.regs := rfl
@[simp] theorem setFl_fl : (s.setFl v).fl = v := rfl
@[simp] theorem setFl_pc : (s.setFl v).pc = s.pc := rfl
@[simp] theorem setFl_run : (s.setFl v).run = s.run := rfl
@[simp] theorem setFl_fcause : (s.setFl v).fcause = s.fcause := rfl
@[simp] theorem setFl_fpc : (s.setFl v).fpc = s.fpc := rfl
@[simp] theorem setFl_finfo : (s.setFl v).finfo = s.finfo := rfl
@[simp] theorem setFl_mem : (s.setFl v).mem = s.mem := rfl
@[simp] theorem setFl_out : (s.setFl v).out = s.out := rfl

/-! ### emit -/
@[simp] theorem emit_reg : (s.emit v).reg i = s.reg i := rfl
@[simp] theorem emit_regs : (s.emit v).regs = s.regs := rfl
@[simp] theorem emit_fl : (s.emit v).fl = s.fl := rfl
@[simp] theorem emit_pc : (s.emit v).pc = s.pc := rfl
@[simp] theorem emit_run : (s.emit v).run = s.run := rfl
@[simp] theorem emit_fcause : (s.emit v).fcause = s.fcause := rfl
@[simp] theorem emit_fpc : (s.emit v).fpc = s.fpc := rfl
@[simp] theorem emit_finfo : (s.emit v).finfo = s.finfo := rfl
@[simp] theorem emit_mem : (s.emit v).mem = s.mem := rfl
@[simp] theorem emit_out : (s.emit v).out = s.out ++ [v] := rfl

/-! ### A new memory -/
@[simp] theorem withMem_reg : State.reg { s with mem := m } i = s.reg i := rfl
@[simp] theorem withMem_sp : State.sp { s with mem := m } = s.sp := rfl

/-! ### takeFault -/
@[simp] theorem takeFault_reg : (takeFault r s).reg i = s.reg i := rfl
@[simp] theorem takeFault_regs : (takeFault r s).regs = s.regs := rfl
@[simp] theorem takeFault_fl : (takeFault r s).fl = s.fl := rfl
@[simp] theorem takeFault_pc : (takeFault r s).pc = s.pc := rfl
@[simp] theorem takeFault_run : (takeFault r s).run = .halted := rfl
@[simp] theorem takeFault_fcause : (takeFault r s).fcause = r.cause.code := rfl
@[simp] theorem takeFault_fpc : (takeFault r s).fpc = s.pc := rfl
@[simp] theorem takeFault_finfo : (takeFault r s).finfo = BitVec.ofNat 9 r.info := rfl
@[simp] theorem takeFault_mem : (takeFault r s).mem = s.mem := rfl
@[simp] theorem takeFault_out : (takeFault r s).out = s.out := rfl

end Sys2Proof.Machine.State
end

