-- ==== Sys2Proof/Laws/Ops.lean ====
section
/-! SUPPORT. One lemma per shared operation that says everything it can do; later proofs cite these. -/

namespace Sys2Proof.Machine

/-! ### Sequencing in `Except Raise` -/

@[simp] theorem raise_bind {α β : Type} (r : Raise) (f : α → Except Raise β) :
    ((Except.error r : Except Raise α) >>= f) = .error r := rfl

@[simp] theorem ok_bind {α β : Type} (x : α) (f : α → Except Raise β) :
    ((Except.ok x : Except Raise α) >>= f) = f x := rfl

@[simp] theorem pure_eq_ok {α : Type} (x : α) : (pure x : Except Raise α) = .ok x := rfl

@[simp] theorem throw_eq_error {α : Type} (r : Raise) : (throw r : Except Raise α) = .error r := rfl

theorem bind_eq_ok {α β : Type} {x : Except Raise α} {f : α → Except Raise β} {y : β} :
    (x >>= f) = .ok y ↔ ∃ a, x = .ok a ∧ f a = .ok y := by
  cases x <;> simp

theorem bind_eq_error {α β : Type} {x : Except Raise α} {f : α → Except Raise β} {r : Raise} :
    (x >>= f) = .error r ↔ x = .error r ∨ ∃ a, x = .ok a ∧ f a = .error r := by
  cases x <;> simp

/-! ### Narrowing -/

@[simp] theorem trunc8_natCast (n : Nat) : trunc8 (n : Int) = BitVec.ofNat 8 n := by
  simp [trunc8]

theorem trunc8_toNat (v : Int) : ((trunc8 v).toNat : Int) = v % 256 := by
  simp only [trunc8, BitVec.toNat_ofInt]
  omega

theorem trunc8_add (x y : Byte) : trunc8 (x.toNat + y.toNat) = x + y := by
  simp [trunc8, BitVec.ofInt_add]

theorem trunc8_dec (x : Byte) : trunc8 (x.toNat - 1) = x - 1 := by
  apply BitVec.eq_of_toNat_eq
  have h := trunc8_toNat (x.toNat - 1)
  have h1 : (1 : Byte).toNat = 1 := rfl
  rw [BitVec.toNat_sub, h1]
  omega

theorem trunc8_inc (x : Byte) : trunc8 (x.toNat + 1) = x + 1 := by
  apply BitVec.eq_of_toNat_eq
  have h := trunc8_toNat (x.toNat + 1)
  have h1 : (1 : Byte).toNat = 1 := rfl
  rw [BitVec.toNat_add, h1]
  omega

/-! ### Committing an instruction -/

@[simp] theorem commit_ok (s t : State) : commit s (.ok t) = .next t := rfl

@[simp] theorem commit_error (s : State) (r : Raise) : commit s (.error r) = .next (takeFault r s) := rfl

theorem takeFault_eq_faulted (r : Raise) (s : State) : takeFault r s = faulted s r.cause.code r.info := rfl

/-- Everything a committed instruction can do: all its writes, or a fault entry. -/
theorem commit_next_cases {s t : State} {x : Except Raise State} (h : commit s x = .next t) :
    x = .ok t ∨ ∃ r, x = .error r ∧ t = takeFault r s := by
  cases x with
  | ok u => left; simpa using h
  | error r => right; exact ⟨r, rfl, by simpa using h.symm⟩

/-! ### Operands and checks -/

@[simp] theorem regByte_toNat (i : RegIdx) : (regByte i).toNat = i.val := by
  have h : i.val < 8 := i.isLt
  simp only [regByte, BitVec.toNat_ofNat]
  omega

@[simp] theorem regOperand_regByte (i : RegIdx) : regOperand (regByte i) = .ok i := by
  unfold regOperand
  rw [dif_pos (by rw [regByte_toNat]; exact i.isLt)]
  simp

theorem regOperand_error {f : Byte} (h : 8 ≤ f.toNat) : regOperand f = .error (raiseRegister f) :=
  dif_neg (Nat.not_lt.mpr h)

/-- Everything a register operand can do. -/
theorem regOperand_cases (f : Byte) :
    (∃ i : RegIdx, f = regByte i ∧ regOperand f = .ok i) ∨
      (8 ≤ f.toNat ∧ regOperand f = .error (raiseRegister f)) := by
  by_cases h : f.toNat < 8
  · left
    have hf : f = regByte ⟨f.toNat, h⟩ := by
      apply BitVec.eq_of_toNat_eq
      simp
    exact ⟨_, hf, dif_pos h⟩
  · exact .inr ⟨by omega, regOperand_error (by omega)⟩

theorem advanceCheck_ok {n : Nat} (h : n ≤ 255) : advanceCheck n = .ok () := if_neg (by omega)

theorem advanceCheck_error {n : Nat} (h : 255 < n) : advanceCheck n = .error (raiseAddress n) := if_pos h

theorem advanceCheck_cases (n : Nat) :
    (n ≤ 255 ∧ advanceCheck n = .ok ()) ∨ (255 < n ∧ advanceCheck n = .error (raiseAddress n)) := by
  by_cases h : n ≤ 255
  · exact .inl ⟨h, advanceCheck_ok h⟩
  · exact .inr ⟨by omega, advanceCheck_error (by omega)⟩

theorem returnAddressCheck_cases (n : Nat) :
    (n ≤ 255 ∧ returnAddressCheck n = .ok ()) ∨ (255 < n ∧ returnAddressCheck n = .error (raiseAddress n)) := by
  by_cases h : n ≤ 255
  · exact .inl ⟨h, if_neg (by omega)⟩
  · exact .inr ⟨by omega, if_pos (by omega)⟩

/-! ### The stack discipline -/

theorem decSp_eq (s : State) : s.decSp = s.setReg spIdx (s.sp - 1) := by
  rw [State.decSp, trunc8_dec]

theorem incSp_eq (s : State) : s.incSp = s.setReg spIdx (s.sp + 1) := by
  rw [State.incSp, trunc8_inc]

@[simp] theorem setReg_spIdx_sp (s : State) (v : Byte) : (s.setReg spIdx v).sp = v := by simp [State.sp]

/-- A store at `SP` always succeeds and changes only that cell (R96: "the store never faults"). -/
@[simp] theorem storeAtSp_eq (s : State) (v : Byte) :
    storeAtSp s v = .ok { s with mem := s.mem.write s.sp.toNat v } := by
  simp [storeAtSp]

theorem pushAddress_eq (s : State) : pushAddress s = (s.sp - 1).toNat := by
  simp [pushAddress, decSp_eq]

/-! ### The ALU -/

/-- ADD, MUL and CMP never raise an ALU error (R88). -/
theorem aluOnRegs_add (s : State) (a b : RegIdx) :
    aluOnRegs .add s a b = .ok (BitVec.ofNat 8 ((s.reg a).toNat + (s.reg b).toNat)) := by
  simp only [aluOnRegs, alu, ← trunc8_natCast, Nat.cast_add]

theorem aluOnRegs_mul (s : State) (a b : RegIdx) :
    aluOnRegs .mul s a b = .ok (BitVec.ofNat 8 ((s.reg a).toNat * (s.reg b).toNat)) := by
  simp only [aluOnRegs, alu, ← trunc8_natCast, Nat.cast_mul]

theorem aluOnRegs_cmp (s : State) (a b : RegIdx) :
    aluOnRegs .cmp s a b = .ok (compareCode (s.reg a) (s.reg b)) := rfl

theorem compareCode_cases (x y : Byte) :
    (x.toNat = y.toNat ∧ compareCode x y = 1) ∨ (x.toNat < y.toNat ∧ compareCode x y = 2) ∨
      (y.toNat < x.toNat ∧ compareCode x y = 3) := by
  unfold compareCode flEq flLt flGt
  split_ifs with h1 h2
  · exact .inl ⟨h1, rfl⟩
  · exact .inr (.inl ⟨h2, rfl⟩)
  · exact .inr (.inr ⟨by omega, rfl⟩)

end Sys2Proof.Machine
end

