-- ==== Sys2Proof/Laws/Fetch.lean ====
section
/-! SUPPORT. Everything fetching can do, and the two cases of a step. -/

namespace Sys2Proof.Machine

theorem fetchBytes_zero (m : Memory) (a : Nat) : fetchBytes m a 0 = .ok [] := rfl

theorem fetchBytes_one {m : Memory} {a : Nat} (h : a ≤ 255) : fetchBytes m a 1 = .ok [m.read a] := by
  have h : a < Config.memSize := Nat.lt_succ_of_le h
  simp [fetchBytes, memRead_ok h]

theorem fetchBytes_two {m : Memory} {a : Nat} (h : a + 1 ≤ 255) :
    fetchBytes m a 2 = .ok [m.read a, m.read (a + 1)] := by
  have h0 : a < Config.memSize := Nat.lt_succ_of_le (Nat.le_of_succ_le h)
  have h1 : a + 1 < Config.memSize := Nat.lt_succ_of_le h
  simp [fetchBytes, memRead_ok h0, memRead_ok h1]

/-- Bytes that reach past 255 raise at the first address past 255, which is 256 (R73, R108). -/
theorem fetchBytes_past {m : Memory} {a n : Nat} (h : 255 < a + n) (ha : a ≤ 256) (hn : 0 < n) :
    fetchBytes m a n = .error (raiseAddress 256) ∨ a + n = 256 := by
  induction n generalizing a with
  | zero => omega
  | succ k ih =>
    by_cases h256 : a = 256
    · left
      subst h256
      simp [fetchBytes, memRead_error (Nat.le_refl 256)]
    · rcases Nat.eq_zero_or_pos k with hk | hk
      · right; omega
      · have h0 : a < Config.memSize := by
          show a < 256
          omega
        rcases ih (a := a + 1) (by omega) (by omega) hk with ih | ih
        · left
          simp [fetchBytes, memRead_ok h0, ih]
        · right; omega

/-- An undefined opcode raises before any operand fetch (R71). -/
theorem fetchInstr_unknown {s : State} (h : isOpcode (s.mem.read s.pc.toNat) = false) :
    fetchInstr s = .error (raiseOpcode (s.mem.read s.pc.toNat)) := by
  simp [fetchInstr, fetch, h]

/-- A defined opcode whose operands reach past 255 raises OutOfRangeAddress(256) (R73). -/
theorem fetchInstr_past {s : State} (h : isOpcode (s.mem.read s.pc.toNat) = true)
    (hn : 255 < s.pc.toNat + operandCount (s.mem.read s.pc.toNat)) :
    fetchInstr s = .error (raiseAddress 256) := by
  have hpc : s.pc.toNat < 256 := s.pc.isLt
  have := fetchBytes_past (m := s.mem) (a := s.pc.toNat + 1) (n := operandCount (s.mem.read s.pc.toNat))
    (by omega) (by omega) (by omega)
  rcases this with h' | h'
  · simp [fetchInstr, fetch, h, h']
  · omega

/-- The bytes of instruction `i` stand at `pc` and all lie within memory. -/
def HoldsAtPc (s : State) (i : Instr) : Prop :=
  s.mem.read s.pc.toNat = i.opcode ∧ s.pc.toNat + i.operands.length ≤ 255 ∧
    ∀ k (h : k < i.operands.length), i.operands[k] = s.mem.read (s.pc.toNat + 1 + k)

/-- A defined opcode whose operands are in memory gives the instruction that those bytes encode (R69). -/
theorem fetchInstr_ok {s : State} (h : isOpcode (s.mem.read s.pc.toNat) = true)
    (hn : s.pc.toNat + operandCount (s.mem.read s.pc.toNat) ≤ 255) :
    ∃ i, fetchInstr s = .ok i ∧ HoldsAtPc s i := by
  have h0 : ∀ op i, s.mem.read s.pc.toNat = op → lookupOpcode op = some (.f0 i) → operandCount op = 0 →
      fetchInstr s = .ok i := by
    intro op i hop hl hc
    have hi : isOpcode op = true := by simp [isOpcode, hl]
    simp [fetchInstr, fetch, hop, hi, hc, fetchBytes_zero, decode, hl]
  have h1 : ∀ op mk, s.mem.read s.pc.toNat = op → lookupOpcode op = some (.f1 mk) → operandCount op = 1 →
      fetchInstr s = .ok (mk (s.mem.read (s.pc.toNat + 1))) := by
    intro op mk hop hl hc
    have hi : isOpcode op = true := by simp [isOpcode, hl]
    rw [hop, hc] at hn
    simp [fetchInstr, fetch, hop, hi, hc, fetchBytes_one hn, decode, hl]
  have h2 : ∀ op mk, s.mem.read s.pc.toNat = op → lookupOpcode op = some (.f2r mk) → operandCount op = 2 →
      fetchInstr s = .ok (mk (s.mem.read (s.pc.toNat + 1)) (s.mem.read (s.pc.toNat + 1 + 1))) := by
    intro op mk hop hl hc
    have hi : isOpcode op = true := by simp [isOpcode, hl]
    rw [hop, hc] at hn
    simp [fetchInstr, fetch, hop, hi, hc, fetchBytes_two hn, decode, hl]
  have h3 : ∀ op mk, s.mem.read s.pc.toNat = op → lookupOpcode op = some (.f2i mk) → operandCount op = 2 →
      fetchInstr s = .ok (mk (s.mem.read (s.pc.toNat + 1)) (s.mem.read (s.pc.toNat + 1 + 1))) := by
    intro op mk hop hl hc
    have hi : isOpcode op = true := by simp [isOpcode, hl]
    rw [hop, hc] at hn
    simp [fetchInstr, fetch, hop, hi, hc, fetchBytes_two hn, decode, hl]
  have holds : ∀ i : Instr, s.mem.read s.pc.toNat = i.opcode →
      (∀ k (hk : k < i.operands.length), i.operands[k] = s.mem.read (s.pc.toNat + 1 + k)) → HoldsAtPc s i :=
    fun i hop hk => ⟨hop, by rw [hop, operandCount_opcode] at hn; exact hn, hk⟩
  have k1 : ∀ (a : Byte), a = s.mem.read (s.pc.toNat + 1) →
      ∀ k (hk : k < [a].length), [a][k] = s.mem.read (s.pc.toNat + 1 + k) := by
    intro a ha k hk
    obtain rfl : k = 0 := by simpa using hk
    simpa using ha
  have k2 : ∀ (a b : Byte), a = s.mem.read (s.pc.toNat + 1) → b = s.mem.read (s.pc.toNat + 1 + 1) →
      ∀ k (hk : k < [a, b].length), [a, b][k] = s.mem.read (s.pc.toNat + 1 + k) := by
    intro a b ha hb k hk
    match k, hk with
    | 0, _ => simpa using ha
    | 1, _ => simpa using hb
  rcases opcode_cases _ h with e | e | e | e | e | e | e | e | e | e | e | e | e
  · exact ⟨_, h0 _ _ e rfl rfl, holds .hlt e (fun k hk => absurd hk (Nat.not_lt_zero k))⟩
  · exact ⟨_, h0 _ _ e rfl rfl, holds .ret e (fun k hk => absurd hk (Nat.not_lt_zero k))⟩
  · exact ⟨_, h1 _ _ e rfl rfl, holds (.push _) e (k1 _ rfl)⟩
  · exact ⟨_, h1 _ _ e rfl rfl, holds (.pop _) e (k1 _ rfl)⟩
  · exact ⟨_, h1 _ _ e rfl rfl, holds (.prn _) e (k1 _ rfl)⟩
  · exact ⟨_, h1 _ _ e rfl rfl, holds (.call _) e (k1 _ rfl)⟩
  · exact ⟨_, h1 _ _ e rfl rfl, holds (.jmp _) e (k1 _ rfl)⟩
  · exact ⟨_, h1 _ _ e rfl rfl, holds (.jeq _) e (k1 _ rfl)⟩
  · exact ⟨_, h1 _ _ e rfl rfl, holds (.jne _) e (k1 _ rfl)⟩
  · exact ⟨_, h3 _ _ e rfl rfl, holds (.ldi _ _) e (k2 _ _ rfl rfl)⟩
  · exact ⟨_, h2 _ _ e rfl rfl, holds (.add _ _) e (k2 _ _ rfl rfl)⟩
  · exact ⟨_, h2 _ _ e rfl rfl, holds (.mul _ _) e (k2 _ _ rfl rfl)⟩
  · exact ⟨_, h2 _ _ e rfl rfl, holds (.cmp _ _) e (k2 _ _ rfl rfl)⟩

/-- Everything fetching can do (R69 to R73). -/
theorem fetchInstr_cases (s : State) :
    (isOpcode (s.mem.read s.pc.toNat) = false ∧
      fetchInstr s = .error (raiseOpcode (s.mem.read s.pc.toNat))) ∨
    (isOpcode (s.mem.read s.pc.toNat) = true ∧ 255 < s.pc.toNat + operandCount (s.mem.read s.pc.toNat) ∧
      fetchInstr s = .error (raiseAddress 256)) ∨
    (∃ i, HoldsAtPc s i ∧ fetchInstr s = .ok i) := by
  cases h : isOpcode (s.mem.read s.pc.toNat)
  · exact .inl ⟨rfl, fetchInstr_unknown h⟩
  · by_cases hn : s.pc.toNat + operandCount (s.mem.read s.pc.toNat) ≤ 255
    · obtain ⟨i, hi, hh⟩ := fetchInstr_ok h hn
      exact .inr (.inr ⟨i, hh, hi⟩)
    · exact .inr (.inl ⟨rfl, by omega, fetchInstr_past h (by omega)⟩)

theorem step_halted {s : State} (h : s.run = .halted) : step s = .next s := by simp [step, h]

theorem step_running {s : State} (h : s.run = .running) :
    step s = match fetchInstr s with
      | .error r => .next (takeFault r s)
      | .ok i => exec i s := by
  cases hf : fetchInstr s <;> simp [step, h, hf]

end Sys2Proof.Machine
end

