-- ==== Sys2Proof/Laws/Host.lean ====
section
/-! SUPPORT. When the host's load and start are accepted, and everything each can do. -/

namespace Sys2Proof.Machine

theorem accepts_iff (s : State) : s.acceptsLoadAndStart = true ↔ s.run = .halted ∧ s.fcause = 0 := by
  simp only [State.acceptsLoadAndStart, Bool.and_eq_true, decide_eq_true_eq]

theorem hostStart_ignored {s : State} (h : ¬(s.run = .halted ∧ s.fcause = 0)) : hostStart s = s :=
  if_neg (fun hc => h ((accepts_iff s).mp hc))

theorem hostStart_accepted {s : State} (hr : s.run = .halted) (hc : s.fcause = 0) :
    hostStart s = { s with run := .running } := if_pos ((accepts_iff s).mpr ⟨hr, hc⟩)

theorem hostLoad_ignored {s : State} (r : LoadRequest) (h : ¬(s.run = .halted ∧ s.fcause = 0)) :
    hostLoad r s = s := if_neg (fun hc => h ((accepts_iff s).mp hc))

theorem hostLoad_accepted {s : State} (r : LoadRequest) (hr : s.run = .halted) (hc : s.fcause = 0) :
    hostLoad r s = match r with
      | .image bytes =>
        if bytes.length ≤ Config.memSize then { s with mem := s.mem.writeBytes 0 bytes } else recordLoadError s
      | .malformed => recordLoadError s := if_pos ((accepts_iff s).mpr ⟨hr, hc⟩)

/-- Everything a load can do (R124, R125). -/
theorem hostLoad_cases (r : LoadRequest) (s : State) :
    hostLoad r s = s ∨
      ((s.run = .halted ∧ s.fcause = 0) ∧
        ((∃ bytes, hostLoad r s = { s with mem := s.mem.writeBytes 0 bytes }) ∨ hostLoad r s = recordLoadError s)) := by
  by_cases h : s.run = .halted ∧ s.fcause = 0
  · right
    refine ⟨h, ?_⟩
    rw [hostLoad_accepted r h.1 h.2]
    cases r with
    | malformed => exact .inr rfl
    | image bytes =>
      dsimp only
      split
      · exact .inl ⟨bytes, rfl⟩
      · exact .inr rfl
  · exact .inl (hostLoad_ignored r h)

/-- Every load keeps memory in its canonical form. -/
theorem hostLoad_mem_wf (r : LoadRequest) (s : State) (h : s.mem.wf = true) : (hostLoad r s).mem.wf = true := by
  rcases hostLoad_cases r s with e | ⟨_, ⟨bytes, e⟩ | e⟩ <;> rw [e]
  · exact h
  · exact Memory.wf_writeBytes _ _ _ h
  · exact h

end Sys2Proof.Machine
end

