-- ==== Sys2Proof/Laws/PerInstr.lean ====
section
/-! SUPPORT. Statements made per instruction. Family EncodeLength: an instruction is one opcode byte and as many
operand bytes as bits 7:6 of that byte count, so 1 to 3 bytes (R53, R54, R63). -/

namespace Sys2Proof.Laws.EncodeLength

/-- The instruction's encoding has the length its opcode byte announces, and that byte is defined. -/
def Statement (i : Instr) : Prop :=
  (encode i).length = 1 + operandCount i.opcode ∧ (encode i).length ≤ 3 ∧ isOpcode i.opcode = true

theorem of_operands (i : Instr) (h : i.operands.length ≤ 2) : Statement i := by
  refine ⟨?_, ?_, isOpcode_opcode i⟩
  · rw [operandCount_opcode, encode, List.length_cons, Nat.add_comm]
  · rw [encode, List.length_cons]
    omega

theorem hlt : Statement .hlt := of_operands _ (by simp [Instr.operands])
theorem ret : Statement .ret := of_operands _ (by simp [Instr.operands])
theorem push (a : Byte) : Statement (.push a) := of_operands _ (by simp [Instr.operands])
theorem pop (a : Byte) : Statement (.pop a) := of_operands _ (by simp [Instr.operands])
theorem prn (a : Byte) : Statement (.prn a) := of_operands _ (by simp [Instr.operands])
theorem call (a : Byte) : Statement (.call a) := of_operands _ (by simp [Instr.operands])
theorem jmp (a : Byte) : Statement (.jmp a) := of_operands _ (by simp [Instr.operands])
theorem jeq (a : Byte) : Statement (.jeq a) := of_operands _ (by simp [Instr.operands])
theorem jne (a : Byte) : Statement (.jne a) := of_operands _ (by simp [Instr.operands])
theorem ldi (a imm : Byte) : Statement (.ldi a imm) := of_operands _ (by simp [Instr.operands])
theorem add (a b : Byte) : Statement (.add a b) := of_operands _ (by simp [Instr.operands])
theorem mul (a b : Byte) : Statement (.mul a b) := of_operands _ (by simp [Instr.operands])
theorem cmp (a b : Byte) : Statement (.cmp a b) := of_operands _ (by simp [Instr.operands])

end Sys2Proof.Laws.EncodeLength
end

