-- ==== Sys2Proof/Tests/Slice0.lean ====
section
/-! SUPPORT. The model's own tests. Expected results are the spec's: vector ids (A1, B5, ...) are those of
spec/95_test_vectors.md, words are written from spec/30_encoding.md R58. The last part gives, for every statement that
has hypotheses, a named witness that meets them. -/

namespace Sys2Proof.Tests

open Sys2Proof.Machine

/-! ### Helpers -/

/-- The reset state, Running, with `pc` set and bytes placed from there (the vectors' start state). -/
def code (pc : Byte) (bytes : List Byte) : State :=
  { State.reset with run := .running, pc := pc, mem := Memory.writeBytes [] pc.toNat bytes }

/-- The state after one step, if the step answers one. -/
def stepped (s : State) : Option State :=
  match step s with
  | .next t => some t
  | .fault _ => none
  | .refused _ => none

/-- The fault vector "Fault c/p/i": FCAUSE, FPC, FINFO, and that RUN is Halted and `pc = FPC`. -/
def faultOf (s : State) : Option (Nat × Nat × Nat × Bool) :=
  (stepped s).map (fun t =>
    (t.fcause.toNat, t.fpc.toNat, t.finfo.toNat, decide (t.run = .halted) && decide (t.pc = t.fpc)))

/-! ### Well-formedness: an ill-formed term for each check, refused -/

theorem test_wellFormed_refuses_each_register_operand :
    (Instr.push 8).wellFormed = false ∧ (Instr.pop 8).wellFormed = false ∧ (Instr.prn 8).wellFormed = false ∧
    (Instr.call 8).wellFormed = false ∧ (Instr.jmp 8).wellFormed = false ∧ (Instr.jeq 8).wellFormed = false ∧
    (Instr.jne 8).wellFormed = false ∧ (Instr.ldi 8 0).wellFormed = false ∧
    (Instr.add 8 0).wellFormed = false ∧ (Instr.add 0 8).wellFormed = false ∧
    (Instr.mul 255 0).wellFormed = false ∧ (Instr.mul 0 255).wellFormed = false ∧
    (Instr.cmp 9 0).wellFormed = false ∧ (Instr.cmp 0 9).wellFormed = false := by decide

theorem test_wellFormed_accepts_register_7_and_any_immediate :
    (Instr.add 7 7).wellFormed = true ∧ (Instr.ldi 7 255).wellFormed = true ∧ Instr.hlt.wellFormed = true := by decide

/-! ### Decoding, words written out bit by bit from R58 -/

theorem test_decode_hlt : decode [0b00000001] = .ok (.hlt, []) := by decide
theorem test_decode_ret : decode [0b00010001] = .ok (.ret, []) := by decide
theorem test_decode_push : decode [0b01000101, 0b00000011] = .ok (.push 3, []) := by decide
theorem test_decode_pop : decode [0b01000110, 0b00000110] = .ok (.pop 6, []) := by decide
theorem test_decode_prn : decode [0b01000111, 0b00000101] = .ok (.prn 5, []) := by decide
theorem test_decode_call : decode [0b01010000, 0b00000010] = .ok (.call 2, []) := by decide
theorem test_decode_jmp : decode [0b01010100, 0b00000111] = .ok (.jmp 7, []) := by decide
theorem test_decode_jeq : decode [0b01010101, 0b00000100] = .ok (.jeq 4, []) := by decide
theorem test_decode_jne : decode [0b01010110, 0b00000001] = .ok (.jne 1, []) := by decide
theorem test_decode_ldi : decode [0b10000010, 0b00000101, 0b11111111] = .ok (.ldi 5 255, []) := by decide
theorem test_decode_add : decode [0b10100000, 0b00000001, 0b00000010] = .ok (.add 1 2, []) := by decide
theorem test_decode_mul : decode [0b10100010, 0b00000011, 0b00000100] = .ok (.mul 3 4, []) := by decide
theorem test_decode_cmp : decode [0b10100111, 0b00000110, 0b00000000] = .ok (.cmp 6 0, []) := by decide

/-- A register byte is not masked (R56), and what follows the instruction is left. -/
theorem test_decode_keeps_whole_bytes :
    decode [0xA0, 0x08, 0xFF, 0x01] = .ok (.add 0x08 0xFF, [0x01]) := by decide

/-- R61, R62: 0x00, the family's SUB and DIV, and 0xFF are undefined (vectors E1, E2, E3, E5). -/
theorem test_decode_rejects_by_name :
    decode [0x00] = .error (.unknownOpcode 0x00) ∧ decode [0xA1, 0, 1] = .error (.unknownOpcode 0xA1) ∧
    decode [0xA3, 0, 1] = .error (.unknownOpcode 0xA3) ∧ decode [0xFF] = .error (.unknownOpcode 0xFF) ∧
    decode [0x45] = .error (.missingOperand 1) ∧ decode [0xA0, 0] = .error (.missingOperand 2) ∧
    decode [] = .error .noOpcode := by decide

/-- R58: "exactly the thirteen rows", no two with one opcode byte. -/
theorem test_opcode_table : opcodeTable.length = 13 ∧ (opcodeTable.map (·.opcode)).Nodup := by decide

theorem test_table_words :
    decodeTableWord 8 0x01 = some .hlt ∧ decodeTableWord 16 0x0345 = some (.push 3) ∧
    decodeTableWord 24 0x080082 = some (.ldi 0 8) ∧ decodeTableWord 8 0xA1 = none := by decide

/-- A table word placed at reset is what the first step runs. -/
theorem test_fetch_word_runs :
    (stepped (State.reset.withFetchWord 24 0x080082)).map (fun t => (t.reg 0, t.pc)) = some (8, 3) := by decide

/-! ### The ALU function (vectors A20 to A30) -/

theorem test_alu_without_opcode :
    alu .sub 3 5 = .ok 254 ∧ alu .sub 5 3 = .ok 2 ∧ alu .div 7 2 = .ok 3 ∧ alu .div 255 1 = .ok 255 ∧
    alu .div 3 200 = .ok 0 ∧ alu .div 7 0 = .error .divisionByZero ∧ alu .add 255 1 = .ok 0 ∧
    alu .cmp 0 255 = .ok 2 ∧ alu (.other "MOD") 1 1 = .error .unsupportedOperation := by decide

/-! ### Single steps -/

/-- A2: the sum wraps. -/
theorem test_add_wraps :
    (stepped (((code 0 [0xA0, 0, 1]).setReg 0 200).setReg 1 100)).map (fun t => (t.reg 0, t.reg 1, t.pc)) =
      some (44, 100, 3) := by decide
/-- A5: the destination is SP. -/
theorem test_add_to_sp :
    (stepped ((code 0 [0xA0, 7, 0]).setReg 0 0x0C)).map (fun t => (t.reg 7, t.reg 0)) = some (0, 0x0C) := by decide
/-- A9: 255 squared. -/
theorem test_mul_low_byte :
    (stepped ((code 0 [0xA2, 0, 0]).setReg 0 255)).map (fun t => (t.reg 0, t.pc)) = some (1, 3) := by decide
/-- A12: the comparison is unsigned. -/
theorem test_cmp_unsigned :
    (stepped (((code 0 [0xA7, 0, 1]).setReg 0 0xFF).setReg 1 0x01)).map (fun t => (t.fl, t.pc)) = some (3, 3) := by
  decide
/-- A14: a new CMP overwrites FL. -/
theorem test_cmp_overwrites :
    (stepped ((code 0 [0xA7, 3, 3]).setFl 2)).map (fun t => t.fl) = some 1 := by decide
/-- B3: LDI moves the stack. -/
theorem test_ldi_sp : (stepped (code 0 [0x82, 7, 0x80])).map (fun t => (t.sp, t.pc)) = some (0x80, 3) := by decide
/-- B4: the immediate is not a register. -/
theorem test_ldi_immediate_unchecked : (stepped (code 0 [0x82, 0, 9])).map (fun t => t.reg 0) = some 9 := by decide
/-- B11: PRN R7 emits SP. -/
theorem test_prn_sp : (stepped (code 0 [0x47, 7])).map (fun t => (t.out, t.pc)) = some ([0xF4], 2) := by decide
/-- B13: a PRN that faults emits nothing. -/
theorem test_prn_fault_emits_nothing :
    (stepped (code 0 [0x47, 10])).map (fun t => (t.out, t.fcause, t.finfo)) = some ([], 2, 10) := by decide
/-- C3: a push at SP = 0 goes to cell 0xFF. -/
theorem test_push_wraps :
    (stepped (((code 0 [0x45, 0]).setReg 0 0x5A).setReg 7 0)).map (fun t => (t.sp, t.mem.read 0xFF)) =
      some (0xFF, 0x5A) := by decide
/-- C5: PUSH R7 stores the decremented SP. -/
theorem test_push_sp :
    (stepped (code 0 [0x45, 7])).map (fun t => (t.sp, t.mem.read 0xF3)) = some (0xF3, 0xF3) := by decide
/-- C6: POP R7 increments the popped byte. -/
theorem test_pop_sp :
    (stepped { code 0 [0x46, 7] with mem := [(0, 0x46), (1, 7), (0xF4, 0x20)] }).map (fun t => t.sp) = some 0x21 := by
  decide
/-- C7: POP right after reset. -/
theorem test_pop_reset : (stepped (code 0 [0x46, 2])).map (fun t => (t.reg 2, t.sp)) = some (0, 0xF5) := by decide
/-- D2: HLT is legal at 255. -/
theorem test_hlt_at_top :
    (stepped (code 255 [0x01])).map (fun t => (t.run, t.pc, t.fcause)) = some (.halted, 255, 0) := by decide
/-- D5: CALL R7 jumps to the decremented SP. -/
theorem test_call_sp :
    (stepped (code 0x10 [0x50, 7])).map (fun t => (t.sp, t.mem.read 0xF3, t.pc)) = some (0xF3, 0x12, 0xF3) := by
  decide
/-- D7: the return address 255 is legal. -/
theorem test_call_253 :
    (stepped ((code 253 [0x50, 0]).setReg 0 5)).map (fun t => (t.mem.read 0xF3, t.pc)) = some (0xFF, 5) := by decide
/-- D11: RET with SP = 0xFF. -/
theorem test_ret_wraps :
    (stepped ({ code 0x40 [0x11] with mem := [(0x40, 0x11), (0xFF, 0x22)] }.setReg 7 0xFF)).map
      (fun t => (t.pc, t.sp)) = some (0x22, 0) := by decide
/-- D14: JMP at 254 makes no sequential advance. -/
theorem test_jmp_254 : (stepped ((code 254 [0x54, 3]).setReg 3 0x20)).map (fun t => t.pc) = some 0x20 := by decide
/-- D17 to D20. -/
theorem test_jeq_each_code :
    [0, 1, 2, 3].map (fun f => (stepped (((code 6 [0x55, 3]).setReg 3 0x10).setFl f)).map (fun t => t.pc)) =
      [some 8, some 0x10, some 8, some 8] := by decide
/-- D21 to D24. -/
theorem test_jne_each_code :
    [0, 1, 2, 3].map (fun f => (stepped (((code 6 [0x56, 3]).setReg 3 0x10).setFl f)).map (fun t => t.pc)) =
      [some 0x10, some 8, some 0x10, some 0x10] := by decide

/-! ### Faults -/

/-- A17, A18, A19: the advance check, then the fetch of op_b, then of op_a. -/
theorem test_fault_at_the_top :
    faultOf (code 253 [0xA0, 0, 1]) = some (1, 253, 256, true) ∧
    faultOf (code 254 [0xA0, 0]) = some (1, 254, 256, true) ∧
    faultOf (code 255 [0xA0]) = some (1, 255, 256, true) := by decide
/-- E3, E6, E9, E10: unknown opcode, then operand fetch, then `a` before `b`, then the advance. -/
theorem test_fault_priority :
    faultOf (code 255 [0xFF]) = some (3, 255, 0xFF, true) ∧ faultOf (code 0 [0xA0, 8, 9]) = some (2, 0, 8, true) ∧
    faultOf (code 254 [0xA0, 9]) = some (1, 254, 256, true) ∧
    faultOf (code 253 [0xA0, 9, 0]) = some (2, 253, 9, true) := by decide
/-- D8, D10, D28: CALL's own check comes after the register check, which does not depend on the path. -/
theorem test_fault_priority_control :
    faultOf (code 254 [0x50, 0]) = some (1, 254, 256, true) ∧ faultOf (code 254 [0x50, 9]) = some (2, 254, 9, true) ∧
    faultOf (code 0 [0x55, 9]) = some (2, 0, 9, true) := by decide
/-- C9: a faulting PUSH leaves SP and memory. -/
theorem test_fault_is_precise :
    (stepped ((code 254 [0x45, 0]).setReg 0 1)).map (fun t => (t.sp, t.mem.read 0xF3, t.pc)) =
      some (0xF4, 0, 254) := by decide

/-! ### The host (vectors H1, H2, H3, F1, F3) -/

/-- H1: a later load overwrites only its own cells. -/
theorem test_load_twice :
    (hostLoad (.image [0x47]) (hostLoad (.image [0x82, 0x00, 0x08]) State.reset)).mem = [(0, 0x47), (2, 0x08)] := by
  decide
/-- H2, H3: a failed load writes nothing, and start is then ignored. -/
theorem test_load_error (img : List Byte) (h : img.length = 257) :
    hostLoad (.image img) State.reset = { State.reset with fcause := 6 } ∧
    hostLoad .malformed State.reset = { State.reset with fcause := 6 } ∧
    (hostStart (hostLoad .malformed State.reset)).run = .halted := by
  refine ⟨?_, by decide, by decide⟩
  simp [hostLoad, State.acceptsLoadAndStart, State.reset, recordLoadError, Cause.code, h]
/-- F1, F3: after vector B5 start is ignored, and reset clears the record. -/
theorem test_sticky_fault :
    (stepped (code 0 [0x82, 8, 5])).map (fun t => (hostStart t).run) = some .halted ∧
    (stepped (code 0 [0x82, 8, 5])).map hostReset = some State.reset := by decide

/-! ### Witnesses: each statement's hypotheses are met together -/

theorem witness_EncodeOfDecode : decode [0xA7, 0xFF, 0x00, 0x11] = .ok (.cmp 0xFF 0x00, [0x11]) := by decide
theorem witness_StepRunsTheDecodedInstruction :
    (code 255 [0x11]).run = .running ∧ decode (bytesAtPc (code 255 [0x11])) = .ok (.ret, []) := by decide
theorem witness_StepEndsInOneOfThreeWays :
    (code 0 [0x01]).run = .running ∧ (code 0 [0x01]).fcause = 0 ∧ State.reset.run = .halted := by decide
theorem witness_UnknownOpcodeFaults :
    (code 255 [0xFF]).run = .running ∧ isOpcode ((code 255 [0xFF]).mem.read (code 255 [0xFF]).pc.toNat) = false := by
  decide
/-- Both clauses, at 254 with two operands and at 253 with two, and at 255 with one. -/
theorem witness_OperandFetchPast255Faults :
    isOpcode 0xA0 = true ∧ operandCount 0xA0 = 2 ∧ isOpcode 0x45 = true ∧ operandCount 0x45 = 1 ∧
    (code 254 [0xA0]).mem.read 254 = 0xA0 ∧ 255 < (code 254 [0xA0]).pc.toNat + 2 ∧
    (code 253 [0xA0]).mem.read 253 = 0xA0 ∧ (code 253 [0xA0]).pc.toNat + 2 ≤ 255 ∧
    (code 255 [0x45]).mem.read 255 = 0x45 ∧ 255 < (code 255 [0x45]).pc.toNat + 1 := by decide
theorem witness_RegisterByteAboveSevenFaults :
    (Instr.add 7 8).regFields.find? (fun g => decide (8 ≤ g.toNat)) = some 8 ∧
    (Instr.jeq 255).regFields.find? (fun g => decide (8 ≤ g.toNat)) = some 255 := by decide
/-- One state per clause of the priority statement, at the boundary address and the boundary bytes 7 and 8. -/
theorem witness_FaultPriorityOrder :
    (isOpcode ((code 255 [0xFF]).mem.read 255) = false) ∧
    (isOpcode ((code 254 [0x82, 8]).mem.read 254) = true ∧ 255 < 254 + operandCount 0x82) ∧
    ((code 253 [0xA0, 8, 8]).mem.read 254 = 8 ∧ 1 ≤ operandCount 0xA0 ∧ 253 + operandCount 0xA0 ≤ 255) ∧
    ((code 253 [0xA7, 7, 8]).mem.read 254 = 7 ∧ (code 253 [0xA7, 7, 8]).mem.read 255 = 8) ∧
    ((code 254 [0x50, 7]).mem.read 254 = 0x50 ∧ (code 254 [0x50, 7]).mem.read 255 = 7) ∧
    ((code 254 [0x55, 7]).fl ≠ 1 ∧ ((code 254 [0x56, 7]).setFl 1).fl = 1) ∧
    ((code 253 [0xA2, 7, 7]).mem.read 255 = 7 ∧ (code 253 [0xA2, 7, 7]).run = .running) := by decide
theorem witness_SequentialAdvanceIsChecked :
    (Instr.ldi 7 255).wellFormed = true ∧ ContinuesSequentially (code 252 []) (.ldi 7 255) ∧
    (code 252 []).pc.toNat + 1 + operandCount (Instr.ldi 7 255).opcode ≤ 255 ∧
    255 < (code 253 []).pc.toNat + 1 + operandCount (Instr.ldi 7 255).opcode ∧
    ContinuesSequentially (code 253 []) (.jeq 0) :=
  ⟨by decide, trivial, by decide, by decide, (by decide : (0 : Byte) ≠ 1)⟩
theorem witness_WellFormedInstructionNeverFaults :
    (code 252 [0xA0, 7, 7]).run = .running ∧ decode (bytesAtPc (code 252 [0xA0, 7, 7])) = .ok (.add 7 7, []) ∧
    (Instr.add 7 7).wellFormed = true ∧ (code 252 [0xA0, 7, 7]).pc.toNat + (encode (.add 7 7)).length ≤ 255 := by decide
/-- For AddStoresTheSumModulo256, MulStoresTheLowByteOfTheProduct, CmpWritesTheComparisonCode and LdiStoresTheImmediate:
the last address that completes, the one where the advance check fails, the least bad register byte. -/
theorem witness_three_byte_instructions :
    (code 252 []).pc.toNat + 3 ≤ 255 ∧ (code 253 []).pc.toNat = 253 ∧ 8 ≤ (8 : Byte).toNat := by decide
/-- For PrnEmitsTheRegister, PushDecrementsAndStores, PopLoadsAndIncrements, CallPushesTheReturnAddress,
JmpReplacesTheProgramCounter, JeqJumpsWhenEqual and JneJumpsWhenNotEqual, clause by clause. -/
theorem witness_two_byte_instructions :
    (code 253 []).pc.toNat + 2 ≤ 255 ∧ (code 254 []).pc.toNat = 254 ∧ 255 < (code 255 []).pc.toNat + 2 ∧
    8 ≤ (8 : Byte).toNat ∧
    (code 253 []).fl ≠ 0x01 ∧ ((code 253 []).setFl 1).fl = 0x01 ∧
    (code 254 []).fl ≠ 0x01 ∧ ((code 254 []).setFl 1).fl = 0x01 ∧ ((code 254 []).setFl 1).pc.toNat = 254 := by
  decide
/-- The operand-fetch clause of each of these statements, for one and for two operand bytes. -/
theorem witness_OperandFetchFaults :
    (code 255 [0x45]).run = .running ∧ (code 255 [0x45]).mem.read (code 255 [0x45]).pc.toNat = 0x45 ∧
    255 < (code 255 [0x45]).pc.toNat + 1 ∧ (code 254 [0xA0]).mem.read (code 254 [0xA0]).pc.toNat = 0xA0 ∧
    255 < (code 254 [0xA0]).pc.toNat + 2 := by decide
theorem witness_HltHaltsInPlace :
    (code 255 [0x01]).run = .running ∧ (code 255 [0x01]).mem.read (code 255 [0x01]).pc.toNat = 0x01 ∧
    (hostLoad (.image [0x01]) State.reset).run = .halted ∧ (hostLoad (.image [0x01]) State.reset).fcause = 0 ∧
    (hostLoad (.image [0x01]) State.reset).mem.read 0 = 0x01 := by decide
theorem witness_RetPopsTheProgramCounter :
    (code 255 [0x11]).run = .running ∧ (code 255 [0x11]).mem.read (code 255 [0x11]).pc.toNat = 0x11 := by decide
theorem witness_RegisterDestinationFrame :
    (∃ t, exec (.ldi 0 1) (code 0 []) = .next t) ∧ (∃ t, exec (.add 0 1) (code 0 []) = .next t) ∧
    (∃ t, exec (.mul 8 1) (code 0 []) = .next t) := ⟨⟨_, rfl⟩, ⟨_, rfl⟩, ⟨_, rfl⟩⟩
theorem witness_CompareAndPrintFrame :
    (∃ t, exec (.cmp 0 1) (code 0 []) = .next t) ∧ (∃ t, exec (.prn 7) (code 0 []) = .next t) := ⟨⟨_, rfl⟩, ⟨_, rfl⟩⟩
theorem witness_StackStoreFrame :
    (∃ t, exec (.push 0) (code 0 []) = .next t) ∧ (∃ t, exec (.call 7) (code 0 []) = .next t) ∧
    pushAddress (code 0 []) = 0xF3 := ⟨⟨_, rfl⟩, ⟨_, rfl⟩, by decide⟩
theorem witness_StackLoadFrame :
    (∃ t, exec (.pop 7) (code 0 []) = .next t) ∧ (∃ t, exec .ret (code 0 []) = .next t) := ⟨⟨_, rfl⟩, ⟨_, rfl⟩⟩
theorem witness_JumpAndHaltFrame :
    (∃ t, exec (.jmp 0) (code 0 []) = .next t) ∧ (∃ t, exec (.jeq 0) (code 0 []) = .next t) ∧
    (∃ t, exec (.jne 0) (code 0 []) = .next t) ∧ (∃ t, exec .hlt (code 0 []) = .next t) :=
  ⟨⟨_, rfl⟩, ⟨_, rfl⟩, ⟨_, rfl⟩, ⟨_, rfl⟩⟩
/-- A CMP that changes FL; and for JEQ, FL = 2 replaced by 3, both different from 0x01. -/
theorem witness_FlagsWrittenByCmpReadByJumps :
    (∃ t, exec (.cmp 0 0) (code 0 []) = .next t ∧ t.fl ≠ (code 0 []).fl) ∧
    ((3 : Byte) = 0x01 ↔ ((code 0 []).setFl 2).fl = 0x01) ∧
    (∃ t, exec (.jeq 0) ((code 0 []).setFl 2) = .next t) := ⟨⟨_, rfl, by decide⟩, by decide, ⟨_, rfl⟩⟩
theorem witness_RunChangesOnlyByStartHltOrFault :
    (∃ t, serve .start State.reset = .next t ∧ t.run ≠ State.reset.run) ∧
    (∃ t, serve .stepGrant (code 0 [0x01]) = .next t ∧ t.run ≠ (code 0 [0x01]).run) ∧
    (∃ t, serve .stepGrant (code 0 [0x00]) = .next t ∧ t.run ≠ (code 0 [0x00]).run) :=
  ⟨⟨_, rfl, by decide⟩, ⟨_, rfl, by decide⟩, ⟨_, rfl, by decide⟩⟩
theorem witness_FaultRecordIsPrivate :
    (∃ t, serve (.load .malformed) State.reset = .next t ∧ HostRequest.load .malformed ≠ .reset) ∧
    (∃ t, serve .stepGrant (code 0 [0x00]) = .next t) ∧ (∃ t, exec .hlt State.reset = .next t) :=
  ⟨⟨_, rfl, by decide⟩, ⟨_, rfl⟩, ⟨_, rfl⟩⟩
theorem witness_FaultEntryIsPrecise :
    (raiseAddress 256).cause ≠ .loadError ∧ (raiseAddress 256).info < 512 ∧ (raiseAddress 511).info < 512 ∧
    ∃ t, step (code 0 [0xA1]) = .next t ∧ (code 0 [0xA1]).fcause = 0 ∧ t.fcause ≠ 0 :=
  ⟨by decide, by decide, by decide, _, rfl, rfl, by decide⟩
theorem witness_OnlyPrnEmits : ∃ t, exec (.prn 7) (code 0 []) = .next t := ⟨_, rfl⟩
theorem witness_JeqAndJne_and_RetUndoesCall : (code 253 []).pc.toNat + 2 ≤ 255 := by decide
theorem witness_PopUndoesPush : (0 : RegIdx) ≠ 7 ∧ (1 : RegIdx) ≠ 7 ∧ (code 251 []).pc.toNat + 4 ≤ 255 := by decide
theorem witness_MemoryAccessIsBoundsChecked : 255 < 256 ∧ 255 ≤ 255 := by decide
theorem witness_MemoryReadsTheLastWrite :
    memWrite [] 255 7 = .ok [(255, 7)] ∧ Memory.wf [] = true ∧ (0 : Nat) ≠ 255 := by decide
/-- PUSH with R0 = 0x00 and CALL, each storing at the address fetched next; and a PUSH of the HLT byte (vector C11). -/
theorem witness_NextFetchSeesTheStoredByte :
    (∃ t, exec (.push (regByte 0)) ((code 0 []).setReg 7 3) = .next t ∧
      pushAddress ((code 0 []).setReg 7 3) = t.pc.toNat ∧ isOpcode 0x00 = false) ∧
    (∃ t, exec (.push (regByte 0)) (((code 6 []).setReg 7 9).setReg 0 1) = .next t ∧
      pushAddress (((code 6 []).setReg 7 9).setReg 0 1) = t.pc.toNat) ∧
    (∃ t, exec (.call (regByte 0)) ((code 0 []).setReg 0 0xF3) = .next t ∧
      pushAddress ((code 0 []).setReg 0 0xF3) = t.pc.toNat ∧ isOpcode (BitVec.ofNat 8 2) = false) :=
  ⟨⟨_, rfl, by decide, by decide⟩, ⟨_, rfl, by decide⟩, ⟨_, rfl, by decide, by decide⟩⟩
theorem witness_AluComputesModulo256 : (0 : Byte).toNat = 0 ∧ (1 : Byte).toNat ≠ 0 := by decide
/-- States that meet the invariant: one Running, one stopped by a fault. -/
theorem witness_Inv_running : Inv (code 0 [0x01]) := ⟨by decide, by decide, fun _ => rfl, .inl ⟨rfl, rfl, rfl⟩⟩
theorem witness_Inv_faulted : Inv { code 0 [0xA1] with run := .halted, fcause := 3, finfo := 0xA1 } :=
  ⟨by decide, by decide, by decide, .inr (.inr (.inr (.inl ⟨rfl, rfl, by decide, by decide⟩)))⟩
/-- With the two states above, for StepKeepsTheInvariant, HostRequestsKeepTheInvariant and EveryRequestSequenceIsServed. -/
theorem witness_HostRequestsKeepTheInvariant : HostRequest.start ≠ .stepGrant ∧ HostRequest.reset ≠ .stepGrant := by
  decide
/-- LoadWritesTheImageFromZero and FailedLoadRecordsLoadError: the largest image that fits, the smallest that does not, and an accepting state. -/
theorem witness_loads :
    State.reset.run = .halted ∧ State.reset.fcause = 0 ∧ (∃ img : List Byte, img.length = 256) ∧
    (∃ img : List Byte, 256 < img.length) :=
  ⟨rfl, rfl, ⟨List.replicate 256 1, List.length_replicate⟩,
    ⟨List.replicate 257 1, by rw [List.length_replicate]; exact Nat.lt_succ_self 256⟩⟩
theorem witness_StartResumesAtTheCurrentPc :
    State.reset.run = .halted ∧ State.reset.fcause = 0 ∧
    fetchInstr (hostLoad (.image [0x01]) State.reset) = .ok .hlt := ⟨rfl, rfl, rfl⟩
theorem witness_UnacceptedRequestsAreIgnored :
    State.reset.run = .halted ∧ (code 0 []).run = .running ∧
    (hostLoad .malformed State.reset).run = .halted ∧ (hostLoad .malformed State.reset).fcause ≠ 0 ∧
    HostRequest.start ≠ .reset := by decide
theorem witness_DebugReadsShowTheState :
    (code 253 []).pc.toNat ≤ 253 ∧ (code 254 []).pc.toNat = 254 ∧ (code 255 []).pc.toNat = 255 := by decide
theorem witness_ResetValues : (6 : RegIdx) ≠ 7 := by decide

end Sys2Proof.Tests
end

/-! PROOF. Scope: which instructions reach the output port (R13), and the bounds check of the memory primitives
(R11). -/

namespace Sys2Proof.Machine

/-! ### The output events of an instruction -/

/-- Whenever the computation `x` completes, it has emitted nothing beyond what `s` had. -/
def KeepsOutput (s : State) (x : Except Raise State) : Prop :=
  ∀ u, x = .ok u → u.out = s.out

theorem keepsOutput_ok {s u : State} (h : u.out = s.out) : KeepsOutput s (.ok u) := by
  rintro _ ⟨⟩
  exact h

/-- What runs before the last operation of an instruction (checks, reads) cannot emit: only the rest `f` matters. -/
theorem keepsOutput_bind {α : Type} {s : State} {x : Except Raise α} {f : α → Except Raise State}
    (h : ∀ a, KeepsOutput s (f a)) : KeepsOutput s (x >>= f) := by
  intro u hu
  obtain ⟨a, -, ha⟩ := bind_eq_ok.mp hu
  exact h a u ha

/-- A committed instruction whose computation emits nothing keeps the output, whether it completes or faults. -/
theorem commit_out {s t : State} {x : Except Raise State} (h : commit s x = .next t) (hx : KeepsOutput s x) :
    t.out = s.out := by
  obtain hok | ⟨r, -, rfl⟩ := commit_next_cases h
  · exact hx t hok
  · exact State.takeFault_out s r

/-- The push of PUSH and CALL emits nothing, nor does a rest `f` that keeps the output of the state it is given. -/
theorem keepsOutput_push {s : State} {v : Byte} {f : State → Except Raise State}
    (h : ∀ u, KeepsOutput u (f u)) : KeepsOutput s (storeAtSp s.decSp v >>= f) := by
  rw [storeAtSp_eq, ok_bind]
  exact h _

theorem jumpIf_out {taken : Bool} {a : Byte} {s t : State} (h : jumpIf taken a s = .next t) : t.out = s.out := by
  refine commit_out h (keepsOutput_bind fun _ => ?_)
  cases taken with
  | true => exact keepsOutput_ok rfl
  | false => exact keepsOutput_bind fun _ => keepsOutput_ok rfl

/-- Every instruction but PRN keeps the output. -/
theorem exec_out_of_ne_prn {s t : State} {i : Instr} (hi : ∀ a, i ≠ .prn a) (h : exec i s = .next t) :
    t.out = s.out := by
  cases i with
  | hlt =>
    obtain rfl : { s with run := .halted } = t := Host.Outcome.next.inj h
    rfl
  | ret => exact commit_out h (keepsOutput_bind fun _ => keepsOutput_ok rfl)
  | push a =>
    exact commit_out h (keepsOutput_bind fun _ => keepsOutput_bind fun _ =>
      keepsOutput_push fun _ => keepsOutput_ok rfl)
  | pop a =>
    exact commit_out h (keepsOutput_bind fun _ => keepsOutput_bind fun _ => keepsOutput_bind fun _ =>
      keepsOutput_ok rfl)
  | prn a => exact absurd rfl (hi a)
  | call a =>
    exact commit_out h (keepsOutput_bind fun _ => keepsOutput_bind fun _ =>
      keepsOutput_push fun _ => keepsOutput_ok rfl)
  | jmp a => exact commit_out h (keepsOutput_bind fun _ => keepsOutput_ok rfl)
  | jeq a => exact jumpIf_out h
  | jne a => exact jumpIf_out h
  | ldi a imm => exact commit_out h (keepsOutput_bind fun _ => keepsOutput_bind fun _ => keepsOutput_ok rfl)
  | add a b | mul a b | cmp a b =>
    exact commit_out h (keepsOutput_bind fun _ => keepsOutput_bind fun _ => keepsOutput_bind fun _ =>
      keepsOutput_bind fun _ => keepsOutput_ok rfl)

/-- PRN of a register appends that register's value; a faulting PRN emits nothing (R94). -/
theorem exec_prn_out {s t : State} {a : Byte} (h : exec (.prn a) s = .next t) :
    t.out = s.out ∨ ∃ ra : RegIdx, a = regByte ra ∧ t.out = s.out ++ [s.reg ra] := by
  obtain hok | ⟨r, -, rfl⟩ := commit_next_cases h
  · obtain ⟨ra, hra, hok⟩ := bind_eq_ok.mp hok
    obtain ⟨-, -, hok⟩ := bind_eq_ok.mp hok
    obtain rfl := Except.ok.inj hok
    obtain ⟨i, rfl, hi⟩ | ⟨-, herr⟩ := regOperand_cases a
    · obtain rfl : i = ra := Except.ok.inj (hi.symm.trans hra)
      exact .inr ⟨i, rfl, by simp⟩
    · exact absurd (herr.symm.trans hra) (by simp)
  · exact .inl (State.takeFault_out s r)

/-! ### The obligations -/

/-- Settles O35: PRN is the only instruction whose computation calls `emit`, and a fault entry keeps the output. -/
theorem onlyPrnEmits : Obligations.OnlyPrnEmits := by
  intro s t i h
  by_cases hi : ∃ a, i = .prn a
  · obtain ⟨a, rfl⟩ := hi
    obtain hkept | ⟨ra, rfl, hout⟩ := exec_prn_out h
    · exact .inl hkept
    · exact .inr ⟨ra, rfl, hout⟩
  · exact .inl (exec_out_of_ne_prn (not_exists.mp hi) h)

/-- Settles O39: one bounds check decides both primitives, and within the bounds a read gives what was written. -/
theorem memoryAccessIsBoundsChecked : Obligations.MemoryAccessIsBoundsChecked := by
  intro m addr v
  constructor
  · intro hout
    have hout : Config.memSize ≤ addr := hout
    exact ⟨memRead_error hout, memWrite_error hout⟩
  · intro hin
    have hin : addr < Config.memSize := Nat.lt_succ_of_le hin
    exact ⟨memRead_ok hin, m.write addr v, memWrite_ok hin, Memory.read_write_same m addr v⟩

end Sys2Proof.Machine

/-! PROOF. Scope: which instructions touch `FL` (R27), and what changes `RUN` (R30). -/

namespace Sys2Proof.Machine

/-! ### Instructions do not look at `FL` or the status

One walk over the instructions shows that each but HLT does the same from a state with another status and another
`FL`, one that a conditional jump's test cannot tell from the state's own. Taken at the state's own `FL` and status,
the same fact says that a completing instruction keeps the status, and `FL` too unless it is a CMP. -/

/-- `s` with `FL` and the status (`RUN` and the fault record) replaced. -/
def State.relabel (s : State) (v : Byte) (st : Status) : State :=
  { s with fl := v, run := st.run, fcause := st.fcause, fpc := st.fpc, finfo := st.finfo }

@[simp] theorem relabel_self (s : State) : s.relabel s.fl (statusRead s) = s := rfl

@[simp] theorem relabel_fl (s : State) (v : Byte) (st : Status) : (s.relabel v st).fl = v := rfl

/-- Only `FL` differs when the status is the state's own. -/
theorem relabel_of_statusRead_eq {s : State} {st : Status} (v : Byte) (h : statusRead s = st) :
    s.relabel v st = { s with fl := v } := by
  subst h
  rfl

/-- If `i` is a conditional jump, it decides with `FL = v` as it does in `s`. -/
def SameJumpTest (i : Instr) (s : State) (v : Byte) : Prop :=
  (∃ a, i = .jeq a ∨ i = .jne a) → (v = 0x01 ↔ s.fl = 0x01)

theorem flagEqual_relabel {s : State} {v : Byte} (st : Status) (h : v = 0x01 ↔ s.fl = 0x01) :
    (s.relabel v st).flagEqual = s.flagEqual := by
  rw [Bool.eq_iff_iff]
  simpa only [State.flagEqual, flEq, relabel_fl, beq_iff_eq] using h

/-- The computation `y` raises what `x` raises, and completes where `x` does, in the same state but with `FL` as `w`
says and the status `st`. -/
def Relabels (w : State → Byte) (st : Status) (x y : Except Raise State) : Prop :=
  y = x.map fun u => u.relabel (w u) st

section
variable {w : State → Byte} {st : Status}

theorem relabels_ok {u u' : State} (h : u' = u.relabel (w u) st) : Relabels w st (.ok u) (.ok u') :=
  congrArg Except.ok h

theorem relabels_bind {α : Type} {x : Except Raise α} {f g : α → Except Raise State}
    (h : ∀ a, Relabels w st (f a) (g a)) : Relabels w st (x >>= f) (x >>= g) := by
  cases x with
  | ok a => exact h a
  | error r => rfl

/-- The push of PUSH and CALL stores the same byte at the same address. -/
theorem relabels_push {s : State} {v b : Byte} {f g : State → Except Raise State}
    (h : ∀ u, Relabels w st (f u) (g (u.relabel v st))) :
    Relabels w st (storeAtSp s.decSp b >>= f) (storeAtSp (s.relabel v st).decSp b >>= g) := by
  rw [storeAtSp_eq, storeAtSp_eq, ok_bind, ok_bind]
  exact h _

end

/-- `FL` after instruction `i` began with `FL = v`, if `u` is where it ended: only CMP sets its own. -/
def flAfter (v : Byte) : Instr → State → Byte
  | .cmp _ _, u => u.fl
  | _, _ => v

/-- A conditional jump, its decision given, does the same from a relabelled state. -/
theorem jumpIf_relabel (taken : Bool) (a : Byte) (s : State) :
    ∃ x, jumpIf taken a s = commit s x ∧ ∀ v st,
      jumpIf taken a (s.relabel v st) = commit (s.relabel v st) (x.map fun u => u.relabel v st) := by
  refine ⟨_, rfl, fun v st => congrArg (commit _) (relabels_bind (w := fun _ => v) fun _ => ?_)⟩
  cases taken with
  | true => exact relabels_ok rfl
  | false => exact relabels_bind fun _ => relabels_ok rfl

/-- Every instruction but HLT, which writes `RUN`, commits a computation that is the same from a relabelled state. -/
theorem exec_relabel {i : Instr} (s : State) (hi : i ≠ .hlt) :
    ∃ x, exec i s = commit s x ∧ ∀ v st, SameJumpTest i s v →
      exec i (s.relabel v st) = commit (s.relabel v st) (x.map fun u => u.relabel (flAfter v i u) st) := by
  cases i with
  | hlt => exact absurd rfl hi
  | ret => exact ⟨_, rfl, fun _ _ _ => congrArg (commit _) (relabels_bind fun _ => relabels_ok rfl)⟩
  | push a | call a =>
    exact ⟨_, rfl, fun _ _ _ => congrArg (commit _) (relabels_bind fun _ => relabels_bind fun _ =>
      relabels_push fun _ => relabels_ok rfl)⟩
  | pop a =>
    exact ⟨_, rfl, fun _ _ _ => congrArg (commit _) (relabels_bind fun _ => relabels_bind fun _ =>
      relabels_bind fun _ => relabels_ok rfl)⟩
  | prn a | ldi a imm =>
    exact ⟨_, rfl, fun _ _ _ => congrArg (commit _) (relabels_bind fun _ => relabels_bind fun _ => relabels_ok rfl)⟩
  | jmp a => exact ⟨_, rfl, fun _ _ _ => congrArg (commit _) (relabels_bind fun _ => relabels_ok rfl)⟩
  | jeq a =>
    obtain ⟨x, hx, hjump⟩ := jumpIf_relabel s.flagEqual a s
    refine ⟨x, hx, fun v st hv => ?_⟩
    rw [exec, execJeq, flagEqual_relabel st (hv ⟨a, .inl rfl⟩)]
    exact hjump v st
  | jne a =>
    obtain ⟨x, hx, hjump⟩ := jumpIf_relabel (!s.flagEqual) a s
    refine ⟨x, hx, fun v st hv => ?_⟩
    rw [exec, execJne, flagEqual_relabel st (hv ⟨a, .inr rfl⟩)]
    exact hjump v st
  | add a b | mul a b | cmp a b =>
    exact ⟨_, rfl, fun _ _ _ => congrArg (commit _) (relabels_bind fun _ => relabels_bind fun _ =>
      relabels_bind fun _ => relabels_bind fun _ => relabels_ok rfl)⟩

/-! ### What an instruction can do to `FL` and the status -/

/-- Everything an instruction other than HLT can do to `FL` and the status: take a fault, or keep the status and, if
it is no CMP, `FL`; and it does likewise from a relabelled state. -/
theorem exec_next_cases {i : Instr} {s t : State} (hi : i ≠ .hlt) (h : exec i s = .next t) :
    (∃ r, t = takeFault r s ∧
      ∀ v st, SameJumpTest i s v → exec i (s.relabel v st) = .next (takeFault r (s.relabel v st))) ∨
    (statusRead t = statusRead s ∧ t.fl = flAfter s.fl i t ∧
      ∀ v st, SameJumpTest i s v → exec i (s.relabel v st) = .next (t.relabel (flAfter v i t) st)) := by
  obtain ⟨x, hx, hrelabel⟩ := exec_relabel s hi
  obtain rfl | ⟨r, rfl, ht⟩ := commit_next_cases (hx.symm.trans h)
  · have hown := hrelabel s.fl (statusRead s) fun _ => Iff.rfl
    rw [relabel_self, h] at hown
    have hsame : t = t.relabel (flAfter s.fl i t) (statusRead s) := Host.Outcome.next.inj hown
    exact .inr ⟨(congrArg statusRead hsame :), (congrArg State.fl hsame :), hrelabel⟩
  · exact .inl ⟨r, ht, hrelabel⟩

theorem exec_hlt {s t : State} (h : exec .hlt s = .next t) : t = { s with run := .halted } :=
  (Host.Outcome.next.inj h).symm

theorem flAfter_of_ne_cmp {i : Instr} (hi : ∀ a b, i ≠ .cmp a b) (v : Byte) (u : State) : flAfter v i u = v := by
  cases i with
  | cmp a b => exact absurd rfl (hi a b)
  | _ => rfl

theorem exec_fl_of_ne_cmp {i : Instr} {s t : State} (hi : ∀ a b, i ≠ .cmp a b) (h : exec i s = .next t) :
    t.fl = s.fl := by
  by_cases hhlt : i = .hlt
  · subst hhlt
    rw [exec_hlt h]
  · obtain ⟨r, rfl, -⟩ | ⟨-, hfl, -⟩ := exec_next_cases hhlt h
    · exact State.takeFault_fl s r
    · rwa [flAfter_of_ne_cmp hi] at hfl

/-- Replacing `FL` by a value that a conditional jump cannot tell from it changes nothing but `FL` afterwards. -/
theorem exec_withFl {i : Instr} {s t : State} {v : Byte} (hv : SameJumpTest i s v) (h : exec i s = .next t) :
    ∃ w, exec i { s with fl := v } = .next { t with fl := w } := by
  by_cases hhlt : i = .hlt
  · subst hhlt
    exact ⟨v, by rw [exec_hlt h]; rfl⟩
  · obtain ⟨r, rfl, hfault⟩ | ⟨hstatus, -, hdone⟩ := exec_next_cases hhlt h
    · exact ⟨v, hfault v (statusRead s) hv⟩
    · have hresult := hdone v (statusRead s) hv
      rw [relabel_of_statusRead_eq _ rfl, relabel_of_statusRead_eq _ hstatus] at hresult
      exact ⟨_, hresult⟩

/-! ### The run state -/

theorem hostLoad_run (r : LoadRequest) (s : State) : (hostLoad r s).run = s.run := by
  obtain h | ⟨-, ⟨bytes, h⟩ | h⟩ := hostLoad_cases r s
  all_goals exact (congrArg State.run h :)

/-- Everything a start can do: nothing, or set `RUN` in a halted core with no fault recorded. -/
theorem hostStart_cases (s : State) :
    hostStart s = s ∨ ((s.run = .halted ∧ s.fcause = 0) ∧ hostStart s = { s with run := .running }) := by
  by_cases h : s.run = .halted ∧ s.fcause = 0
  · exact .inr ⟨h, hostStart_accepted h.1 h.2⟩
  · exact .inl (hostStart_ignored h)

/-- Everything an instruction can do to `RUN`: keep it, clear it as HLT does, or clear it by a fault entry. -/
theorem exec_run_cases {i : Instr} {s t : State} (h : exec i s = .next t) :
    t.run = s.run ∨ (i = .hlt ∧ t = { s with run := .halted }) ∨ FaultEntered s t := by
  by_cases hhlt : i = .hlt
  · subst hhlt
    exact .inr (.inl ⟨rfl, exec_hlt h⟩)
  · obtain ⟨r, rfl, -⟩ | ⟨hstatus, -, -⟩ := exec_next_cases hhlt h
    · exact .inr (.inr ⟨_, _, takeFault_eq_faulted r s⟩)
    · exact .inl (congrArg Status.run hstatus :)

/-- Everything a step in Running can do: take the fault that fetching raises, or run the instruction at `pc`. -/
theorem step_running_cases {s t : State} (hrun : s.run = .running) (h : step s = .next t) :
    (∃ r, fetchInstr s = .error r ∧ t = takeFault r s) ∨ ∃ i, HoldsAtPc s i ∧ exec i s = .next t := by
  rw [step_running hrun] at h
  obtain ⟨-, hf⟩ | ⟨-, -, hf⟩ | ⟨i, hi, hf⟩ := fetchInstr_cases s <;> rw [hf] at h
  · exact .inl ⟨_, hf, (Host.Outcome.next.inj h).symm⟩
  · exact .inl ⟨_, hf, (Host.Outcome.next.inj h).symm⟩
  · exact .inr ⟨i, hi, h⟩

/-- Everything a step in Running can do to `RUN`: keep it, clear it at a HLT byte, or clear it by a fault entry. -/
theorem step_run_cases {s t : State} (hrun : s.run = .running) (h : step s = .next t) :
    t.run = s.run ∨ (s.mem.read s.pc.toNat = 0x01 ∧ t = { s with run := .halted }) ∨ FaultEntered s t := by
  obtain ⟨r, -, rfl⟩ | ⟨i, ⟨hop, -, -⟩, hexec⟩ := step_running_cases hrun h
  · exact .inr (.inr ⟨_, _, takeFault_eq_faulted r s⟩)
  · obtain hkept | ⟨rfl, ht⟩ | hfault := exec_run_cases hexec
    · exact .inl hkept
    · exact .inr (.inl ⟨hop, ht⟩)
    · exact .inr (.inr hfault)

/-! ### The obligations -/

/-- Settles O31: from a state with another `FL` every instruction but CMP does the same and hands that `FL` on, and
the conditional jumps need only the same test. -/
theorem flagsWrittenByCmpReadByJumps : Obligations.FlagsWrittenByCmpReadByJumps := by
  refine ⟨fun s t i h hchanged => ?_, fun s t i v hv h => exec_withFl hv h⟩
  by_contra hcmp
  exact hchanged (exec_fl_of_ne_cmp (fun a b hi => hcmp ⟨a, b, hi⟩) h)

/-- Settles O32, by the cases of the request: a load keeps `RUN`, and a step in Running clears it in two ways. -/
theorem runChangesOnlyByStartHltOrFault : Obligations.RunChangesOnlyByStartHltOrFault := by
  refine ⟨fun s t q h hchanged => ?_, fun s hrun => step_halted hrun⟩
  cases q with
  | reset => exact .inl rfl
  | load r =>
    obtain rfl := Host.Outcome.next.inj h
    exact absurd (hostLoad_run r s) hchanged
  | start =>
    obtain rfl := Host.Outcome.next.inj h
    obtain hsame | ⟨⟨hrun, hcause⟩, hset⟩ := hostStart_cases s
    · exact absurd (congrArg State.run hsame) hchanged
    · exact .inr (.inl ⟨rfl, hrun, hcause, hset⟩)
  | stepGrant =>
    cases hrun : s.run with
    | halted =>
      obtain rfl := Host.Outcome.next.inj ((step_halted hrun).symm.trans h)
      exact absurd rfl hchanged
    | running =>
      obtain hkept | ⟨hop, ht⟩ | hfault := step_run_cases hrun h
      · exact absurd hkept hchanged
      · exact .inr (.inr (.inl ⟨rfl, rfl, hop, ht⟩))
      · exact .inr (.inr (.inr ⟨rfl, rfl, hfault⟩))

end Sys2Proof.Machine

/-! PROOF. Scope: the faults that fetching raises (R71, R73), and which bytes a fetch that succeeds has read. -/

namespace Sys2Proof.Machine

/-! ### Steps whose fetch faults -/

/-- A fault of the fetch is the whole step. -/
theorem step_of_fetchInstr_error {s : State} {r : Raise} (hrun : s.run = .running) (h : fetchInstr s = .error r) :
    step s = .next (takeFault r s) := by
  rw [step_running hrun, h]

theorem step_unknownOpcode {s : State} (hrun : s.run = .running) (h : isOpcode (s.mem.read s.pc.toNat) = false) :
    step s = .next (faulted s 3 (s.mem.read s.pc.toNat).toNat) :=
  step_of_fetchInstr_error hrun (fetchInstr_unknown h)

theorem step_operandFetchPast {s : State} (hrun : s.run = .running) (h : isOpcode (s.mem.read s.pc.toNat) = true)
    (hpast : 255 < s.pc.toNat + operandCount (s.mem.read s.pc.toNat)) : step s = .next (faulted s 1 256) :=
  step_of_fetchInstr_error hrun (fetchInstr_past h hpast)

/-! ### Where an operand fetch can fault, and what it reads otherwise -/

/-- No defined opcode has bits 7:6 equal to 3 (R54, R58). -/
theorem operandCount_le_two {op : Byte} (h : isOpcode op = true) : operandCount op ≤ 2 := by
  rcases opcode_cases op h with rfl | rfl | rfl | rfl | rfl | rfl | rfl | rfl | rfl | rfl | rfl | rfl | rfl <;> decide

/-- At most two operand bytes reach past 255 from 255 and 254 only. -/
theorem past255_cases (pc : Byte) {n : Nat} (hn : n ≤ 2) (hpast : 255 < pc.toNat + n) :
    (pc.toNat = 255 ∧ 1 ≤ n) ∨ (pc.toNat = 254 ∧ n = 2) := by
  have hpc : pc.toNat < 256 := pc.isLt
  omega

/-- Operand byte `k`, counted from 1, of the instruction at `pc` is the byte at `pc + k`. -/
theorem HoldsAtPc.encode_eq {s : State} {i : Instr} (h : HoldsAtPc s i) :
    encode i = s.mem.read s.pc.toNat ::
      (List.range (operandCount (s.mem.read s.pc.toNat))).map fun k => s.mem.read (s.pc.toNat + (k + 1)) := by
  obtain ⟨hop, -, hbytes⟩ := h
  rw [hop, operandCount_opcode, encode]
  refine congrArg (i.opcode :: ·) (List.ext_getElem (by simp) fun k hk _ => ?_)
  rw [hbytes k hk, List.getElem_map, List.getElem_range, Nat.add_assoc, Nat.add_comm 1 k]

/-! ### The obligations -/

/-- Settles O7: the opcode lookup comes before any operand fetch, so where `pc` is does not matter. -/
theorem unknownOpcodeFaults : Obligations.UnknownOpcodeFaults :=
  fun _ hrun hop => step_unknownOpcode hrun hop

/-- Settles O8: an operand fetch past 255 is the whole step; within memory the instruction fetched is the one whose
bytes stand at `pc`. -/
theorem operandFetchPast255Faults : Obligations.OperandFetchPast255Faults := by
  rintro s _ _ hrun rfl hop rfl
  constructor
  · intro hpast
    exact ⟨step_operandFetchPast hrun hop hpast, past255_cases s.pc (operandCount_le_two hop) hpast⟩
  · intro hin
    obtain ⟨i, hfetch, hholds⟩ := fetchInstr_ok hop hin
    exact ⟨i, hfetch, hholds.encode_eq⟩

end Sys2Proof.Machine

/-! PROOF. Scope: ADD, MUL and CMP, the instructions that check two registers and call the ALU (R90, R91, R92). -/

namespace Sys2Proof.Machine

/-! ### The checks at the front of an instruction -/

/-- A register byte above 7 is the whole instruction: it faults, whatever the rest `f` would do (R23). -/
theorem commit_badRegister {s : State} {bad : Byte} (f : RegIdx → Except Raise State) (h : 8 ≤ bad.toNat) :
    commit s (regOperand bad >>= f) = .next (faulted s 2 bad.toNat) := by
  rw [regOperand_error h]
  rfl

/-- A next address past 255 is the whole instruction: it faults with that address (R76). -/
theorem commit_advancePast {s : State} {npc : Nat} (f : Unit → Except Raise State) (h : 255 < npc) :
    commit s (advanceCheck npc >>= f) = .next (faulted s 1 npc) := by
  rw [advanceCheck_error h]
  rfl

/-- The operand-fetch clause, for any defined opcode and the operand count of its bits 7:6. -/
theorem operandFetchFaults {op : Byte} (h : isOpcode op = true) : OperandFetchFaults op (operandCount op) := by
  rintro s hrun rfl hpast
  exact step_operandFetchPast hrun h hpast

/-! ### Instructions with two register operands -/

/-- `mk a b` checks register `a`, then register `b`, then the advance past its three bytes, and ends in `after`. -/
def ChecksTwoRegisters (mk : Byte → Byte → Instr) (after : State → RegIdx → RegIdx → State) : Prop :=
  ∀ a b s, exec (mk a b) s = commit s do
    let ra ← regOperand a
    let rb ← regOperand b
    advanceCheck (nextPc s 2)
    return after s ra rb

section
variable {mk : Byte → Byte → Instr} {after : State → RegIdx → RegIdx → State}

/-- Both registers named, only the advance is left to check. -/
theorem ChecksTwoRegisters.exec_regBytes (h : ChecksTwoRegisters mk after) (s : State) (ra rb : RegIdx) :
    exec (mk (regByte ra) (regByte rb)) s =
      commit s (advanceCheck (s.pc.toNat + 3) >>= fun _ => .ok (after s ra rb)) := by
  rw [h, regOperand_regByte, regOperand_regByte]
  rfl

theorem ChecksTwoRegisters.exec_bad_first (h : ChecksTwoRegisters mk after) (s : State) {bad : Byte} (b : Byte)
    (hbad : 8 ≤ bad.toNat) : exec (mk bad b) s = .next (faulted s 2 bad.toNat) := by
  rw [h, commit_badRegister _ hbad]

theorem ChecksTwoRegisters.exec_bad_second (h : ChecksTwoRegisters mk after) (s : State) (ra : RegIdx) {bad : Byte}
    (hbad : 8 ≤ bad.toNat) : exec (mk (regByte ra) bad) s = .next (faulted s 2 bad.toNat) := by
  rw [h, regOperand_regByte, ok_bind, commit_badRegister _ hbad]

/-- Everything that R90, R91 and R92 say of `exec`: the effect, the advance fault at 253, and the two register faults. -/
theorem ChecksTwoRegisters.exec_effect_and_faults (h : ChecksTwoRegisters mk after) (s : State) (ra rb : RegIdx) :
    (s.pc.toNat + 3 ≤ 255 → exec (mk (regByte ra) (regByte rb)) s = .next (after s ra rb)) ∧
    (s.pc.toNat = 253 → exec (mk (regByte ra) (regByte rb)) s = .next (faulted s 1 256)) ∧
    (∀ bad b : Byte, 8 ≤ bad.toNat → exec (mk bad b) s = .next (faulted s 2 bad.toNat)) ∧
    (∀ bad : Byte, 8 ≤ bad.toNat → exec (mk (regByte ra) bad) s = .next (faulted s 2 bad.toNat)) := by
  refine ⟨fun hin => ?_, fun hpc => ?_, fun _ b => h.exec_bad_first s b, fun _ => h.exec_bad_second s ra⟩
  · rw [h.exec_regBytes, advanceCheck_ok hin, ok_bind, commit_ok]
  · rw [h.exec_regBytes, hpc]
    exact commit_advancePast _ (by decide)

end

/-! ### What each of the three does once its checks pass -/

theorem checksTwoRegisters_add : ChecksTwoRegisters .add fun s ra rb =>
    (s.setReg ra (BitVec.ofNat 8 ((s.reg ra).toNat + (s.reg rb).toNat))).setPc (nextPc s 2) := by
  intro a b s
  simp only [exec, execAdd, aluOnRegs_add, ok_bind]

theorem checksTwoRegisters_mul : ChecksTwoRegisters .mul fun s ra rb =>
    (s.setReg ra (BitVec.ofNat 8 ((s.reg ra).toNat * (s.reg rb).toNat))).setPc (nextPc s 2) := by
  intro a b s
  simp only [exec, execMul, aluOnRegs_mul, ok_bind]

theorem checksTwoRegisters_cmp : ChecksTwoRegisters .cmp fun s ra rb =>
    (s.setFl (compareCode (s.reg ra) (s.reg rb))).setPc (nextPc s 2) := by
  intro a b s
  simp only [exec, execCmp, aluOnRegs_cmp, ok_bind]

/-! ### The obligations -/

/-- Settles O13: ADD passes its checks in R90's order, and the ALU never raises for it. -/
theorem addStoresTheSumModulo256 : Obligations.AddStoresTheSumModulo256 :=
  ⟨checksTwoRegisters_add.exec_effect_and_faults, operandFetchFaults rfl, fun _ _ _ => rfl⟩

/-- Settles O14: MUL differs from ADD in the value that the ALU answers only. -/
theorem mulStoresTheLowByteOfTheProduct : Obligations.MulStoresTheLowByteOfTheProduct :=
  ⟨checksTwoRegisters_mul.exec_effect_and_faults, operandFetchFaults rfl, fun _ _ _ => rfl⟩

/-- Settles O15: CMP makes the same checks, and then writes the comparison code to `FL` and no register. -/
theorem cmpWritesTheComparisonCode : Obligations.CmpWritesTheComparisonCode :=
  ⟨checksTwoRegisters_cmp.exec_effect_and_faults, operandFetchFaults rfl, fun _ _ _ => rfl⟩

end Sys2Proof.Machine

/-! PROOF. Scope: LDI and PRN (R93, R94), by a rule for the instructions that check one register and then the
advance. -/

namespace Sys2Proof.Machine

/-! ### Instructions with one register operand that continue sequentially -/

/-- `mk a` checks register `a`, then the advance past its opcode and `n` operand bytes, and ends in `after`. -/
def ChecksOneRegister (n : Nat) (mk : Byte → Instr) (after : State → RegIdx → State) : Prop :=
  ∀ a s, exec (mk a) s = commit s do
    let ra ← regOperand a
    advanceCheck (nextPc s n)
    return after s ra

section
variable {n : Nat} {mk : Byte → Instr} {after : State → RegIdx → State}

/-- The register named, only the advance is left to check. -/
theorem ChecksOneRegister.exec_regByte (h : ChecksOneRegister n mk after) (s : State) (ra : RegIdx) :
    exec (mk (regByte ra)) s = commit s (advanceCheck (nextPc s n) >>= fun _ => .ok (after s ra)) := by
  rw [h, regOperand_regByte]
  rfl

theorem ChecksOneRegister.exec_within (h : ChecksOneRegister n mk after) (s : State) (ra : RegIdx)
    (hin : nextPc s n ≤ 255) : exec (mk (regByte ra)) s = .next (after s ra) := by
  rw [h.exec_regByte, advanceCheck_ok hin, ok_bind, commit_ok]

theorem ChecksOneRegister.exec_past (h : ChecksOneRegister n mk after) (s : State) (ra : RegIdx) {npc : Nat}
    (hnpc : nextPc s n = npc) (hpast : 255 < npc) : exec (mk (regByte ra)) s = .next (faulted s 1 npc) := by
  rw [h.exec_regByte, hnpc, commit_advancePast _ hpast]

theorem ChecksOneRegister.exec_bad (h : ChecksOneRegister n mk after) (s : State) {bad : Byte}
    (hbad : 8 ≤ bad.toNat) : exec (mk bad) s = .next (faulted s 2 bad.toNat) := by
  rw [h, commit_badRegister _ hbad]

end

/-! ### What the two do once their checks pass -/

theorem checksOneRegister_ldi (imm : Byte) : ChecksOneRegister 2 (.ldi · imm) fun s ra =>
    (s.setReg ra imm).setPc (nextPc s 2) :=
  fun _ _ => rfl

theorem checksOneRegister_prn : ChecksOneRegister 1 .prn fun s ra =>
    (s.emit (s.reg ra)).setPc (nextPc s 1) :=
  fun _ _ => rfl

/-! ### The obligations -/

/-- Settles O16: only the register byte is checked, so the immediate reaches the register as it stands. -/
theorem ldiStoresTheImmediate : Obligations.LdiStoresTheImmediate := by
  refine ⟨fun s ra imm => ?_, operandFetchFaults rfl, fun _ _ _ => rfl⟩
  have hldi := checksOneRegister_ldi imm
  refine ⟨hldi.exec_within s ra, fun hpc => ?_, fun _ => hldi.exec_bad s⟩
  have hnext : nextPc s 2 = 256 := by rw [nextPc, hpc]
  exact hldi.exec_past s ra hnext (by decide)

/-- Settles O17: the event is part of the state after both checks, so a PRN that faults emits nothing. -/
theorem prnEmitsTheRegister : Obligations.PrnEmitsTheRegister := by
  refine ⟨fun s ra => ?_, operandFetchFaults rfl, fun _ _ => rfl⟩
  have hprn := checksOneRegister_prn
  refine ⟨hprn.exec_within s ra, fun hpc => ?_, fun _ => hprn.exec_bad s⟩
  have hnext : nextPc s 1 = 256 := by rw [nextPc, hpc]
  exact hprn.exec_past s ra hnext (by decide)

end Sys2Proof.Machine

/-! PROOF. Scope: HLT, RET, JMP, JEQ and JNE, the control instructions but CALL (R99, R101 to R104). -/

namespace Sys2Proof.Machine

/-! ### Steps at an instruction without operands -/

/-- An instruction without operands is its opcode byte (R63). -/
theorem decode_opcode_of_noOperands {i : Instr} (hi : i.operands = []) (rest : List Byte) :
    decode (i.opcode :: rest) = .ok (i, rest) := by
  cases i with
  | hlt | ret => rfl
  | _ => cases hi

/-- Such an instruction is fetched at every `pc`, 255 included, since no byte past its opcode is read (R72). -/
theorem fetchInstr_noOperands {s : State} {i : Instr} (hi : i.operands = [])
    (hop : s.mem.read s.pc.toNat = i.opcode) : fetchInstr s = .ok i := by
  have hfetch : fetch s = .ok [i.opcode] := by
    simp [fetch, hop, operandCount_opcode, hi, fetchBytes_zero]
  simp [fetchInstr, hfetch, decode_opcode_of_noOperands hi]

theorem step_noOperands {s : State} {i : Instr} (hi : i.operands = []) (hrun : s.run = .running)
    (hop : s.mem.read s.pc.toNat = i.opcode) : step s = exec i s := by
  rw [step_running hrun, fetchInstr_noOperands hi hop]

/-- A running step at a HLT byte. -/
theorem step_hlt {s : State} (hrun : s.run = .running) (hop : s.mem.read s.pc.toNat = 0x01) :
    step s = .next { s with run := .halted } :=
  step_noOperands (i := .hlt) rfl hrun hop

/-! ### A request at the front of a sequence -/

/-- A request that is served hands its state on to the rest of the sequence. -/
theorem serveAll_cons_of_next {q : HostRequest} {s t : State} (qs : List HostRequest) (h : serve q s = .next t) :
    serveAll (q :: qs) s = serveAll qs t := by
  simp [serveAll, h]

/-! ### RET and JMP -/

/-- The read at `SP` never faults (R101). -/
theorem exec_ret (s : State) :
    exec .ret s = .next { s with regs := s.regs.set 7 (s.reg 7 + 1), pc := s.mem.read (s.reg 7).toNat } := by
  have hread : memRead s.mem (popAddress s) = .ok (s.mem.read (s.reg 7).toNat) := memRead_byte s.mem s.sp
  have hret : exec .ret s = commit s (memRead s.mem (popAddress s) >>= fun v => .ok (s.setPc v.toNat).incSp) := rfl
  rw [hret, hread, ok_bind, commit_ok, incSp_eq, State.setPc_byte]
  rfl

/-- The register named, nothing is left to check (R102). -/
theorem exec_jmp_regByte (s : State) (ra : RegIdx) : exec (.jmp (regByte ra)) s = .next { s with pc := s.reg ra } := by
  have hjmp : exec (.jmp (regByte ra)) s =
      commit s (regOperand (regByte ra) >>= fun r => .ok (s.setPc (s.reg r).toNat)) := rfl
  rw [hjmp, regOperand_regByte, ok_bind, commit_ok, State.setPc_byte]

/-! ### Conditional jumps -/

/-- A conditional jump that is taken is JMP. -/
theorem jumpIf_true (a : Byte) (s : State) : jumpIf true a s = exec (.jmp a) s := rfl

/-- The register named, only the advance of a jump not taken is left to check. -/
theorem jumpIf_false_regByte (s : State) (ra : RegIdx) :
    jumpIf false (regByte ra) s =
      commit s (advanceCheck (s.pc.toNat + 2) >>= fun _ => .ok (s.setPc (s.pc.toNat + 2))) := by
  have hjump : jumpIf false (regByte ra) s =
      commit s (regOperand (regByte ra) >>= fun _ =>
        advanceCheck (s.pc.toNat + 2) >>= fun _ => .ok (s.setPc (s.pc.toNat + 2))) := rfl
  rw [hjump, regOperand_regByte, ok_bind]

/-- The register is checked whether or not the jump is taken (R74). -/
theorem jumpIf_bad (taken : Bool) {bad : Byte} (s : State) (h : 8 ≤ bad.toNat) :
    jumpIf taken bad s = .next (faulted s 2 bad.toNat) :=
  commit_badRegister _ h

/-- Everything that R103 and R104 say of a conditional jump through a register, but for its test. -/
theorem jumpIf_effect_and_fault (taken : Bool) (s : State) (ra : RegIdx) :
    (taken = true → jumpIf taken (regByte ra) s = .next { s with pc := s.reg ra }) ∧
    (taken = false → s.pc.toNat + 2 ≤ 255 →
      jumpIf taken (regByte ra) s = .next { s with pc := BitVec.ofNat 8 (s.pc.toNat + 2) }) ∧
    (taken = false → s.pc.toNat = 254 → jumpIf taken (regByte ra) s = .next (faulted s 1 256)) := by
  refine ⟨?_, ?_, ?_⟩
  · rintro rfl
    rw [jumpIf_true, exec_jmp_regByte]
  · rintro rfl hin
    rw [jumpIf_false_regByte, advanceCheck_ok hin]
    rfl
  · rintro rfl hpc
    rw [jumpIf_false_regByte, hpc]
    exact commit_advancePast _ (by decide)

theorem flagEqual_eq_true_iff (s : State) : s.flagEqual = true ↔ s.fl = 0x01 := beq_iff_eq

theorem flagEqual_eq_false_iff (s : State) : s.flagEqual = false ↔ s.fl ≠ 0x01 := beq_eq_false_iff_ne

/-! ### The obligations -/

/-- Settles O20: HLT reads no byte but its own and writes `RUN` only, so an accepted start and the step after it undo
each other. -/
theorem hltHaltsInPlace : Obligations.HltHaltsInPlace := by
  refine ⟨fun _ => rfl, fun _ => step_hlt, fun s hrun hcause hop => ?_, fun _ => rfl⟩
  have hstart : serve .start s = .next { s with run := .running } :=
    congrArg Host.Outcome.next (hostStart_accepted hrun hcause)
  have hstep : serve .stepGrant { s with run := .running } = .next { s with run := .halted } :=
    step_hlt (s := { s with run := .running }) rfl hop
  rw [serveAll_cons_of_next _ hstart, serveAll_cons_of_next _ hstep, ← hrun]
  rfl

/-- Settles O22: RET's one read is at a byte address, and its step reads no byte past the opcode. -/
theorem retPopsTheProgramCounter : Obligations.RetPopsTheProgramCounter :=
  ⟨exec_ret, fun _ => step_noOperands (i := .ret) rfl, fun _ => rfl⟩

/-- Settles O23: the register check is JMP's only one. -/
theorem jmpReplacesTheProgramCounter : Obligations.JmpReplacesTheProgramCounter :=
  ⟨exec_jmp_regByte, fun _ _ => commit_badRegister _, operandFetchFaults rfl, fun _ _ => rfl⟩

/-- Settles O24: JEQ is the conditional jump whose test is `flagEqual`. -/
theorem jeqJumpsWhenEqual : Obligations.JeqJumpsWhenEqual := by
  refine ⟨fun s ra => ?_, fun s _ => jumpIf_bad s.flagEqual s, operandFetchFaults rfl, fun _ _ => rfl⟩
  have hjeq : exec (.jeq (regByte ra)) s = jumpIf s.flagEqual (regByte ra) s := rfl
  rw [hjeq, ← flagEqual_eq_true_iff, ← flagEqual_eq_false_iff]
  exact jumpIf_effect_and_fault s.flagEqual s ra

/-- Settles O25: JNE is the conditional jump with the opposite test. -/
theorem jneJumpsWhenNotEqual : Obligations.JneJumpsWhenNotEqual := by
  refine ⟨fun s ra => ?_, fun s _ => jumpIf_bad (!s.flagEqual) s, operandFetchFaults rfl, fun _ _ => rfl⟩
  have hjne : exec (.jne (regByte ra)) s = jumpIf (!s.flagEqual) (regByte ra) s := rfl
  have htaken : (!s.flagEqual) = true ↔ s.fl ≠ 0x01 := by rw [Bool.not_eq_true', flagEqual_eq_false_iff]
  have huntaken : (!s.flagEqual) = false ↔ s.fl = 0x01 := by rw [Bool.not_eq_false', flagEqual_eq_true_iff]
  rw [hjne, ← htaken, ← huntaken]
  exact jumpIf_effect_and_fault (!s.flagEqual) s ra

end Sys2Proof.Machine

/-! PROOF. Scope: what a step can write to `FCAUSE`, and that a fault entry is a step's only way to set it (R109). -/

namespace Sys2Proof.Machine

/-! ### What a computation raises, and what it ends in

LoadError is a failed host load's cause and never an instruction's (R125). The walk over the instructions carries that
together with what holds of the result, one rule per operation. -/

/-- The computation ends in a result with `post`, or raises a cause other than LoadError. -/
def Meets {α : Type} (post : α → Prop) : Except Raise α → Prop
  | .ok a => post a
  | .error r => r.cause ≠ .loadError

theorem meets_ok {α : Type} {post : α → Prop} {a : α} (h : post a) : Meets post (.ok a) := h

theorem meets_error {α : Type} {post : α → Prop} {r : Raise} (h : r.cause ≠ .loadError) : Meets post (.error r) := h

theorem Meets.bind {α β : Type} {mid : α → Prop} {post : β → Prop} {x : Except Raise α} {f : α → Except Raise β}
    (hx : Meets mid x) (hf : ∀ a, mid a → Meets post (f a)) : Meets post (x >>= f) := by
  cases x with
  | ok a => exact hf a hx
  | error r => exact hx

theorem meets_regOperand (a : Byte) : Meets (fun _ => True) (regOperand a) := by
  obtain ⟨i, -, h⟩ | ⟨-, h⟩ := regOperand_cases a <;> rw [h]
  · exact meets_ok trivial
  · exact meets_error (by simp [raiseRegister])

theorem meets_raiseAddress {α : Type} {post : α → Prop} (addr : Nat) : Meets post (.error (raiseAddress addr)) :=
  meets_error (by simp [raiseAddress])

theorem meets_advanceCheck (npc : Nat) : Meets (fun _ => True) (advanceCheck npc) := by
  obtain ⟨-, h⟩ | ⟨-, h⟩ := advanceCheck_cases npc <;> rw [h]
  · exact meets_ok trivial
  · exact meets_raiseAddress npc

theorem meets_returnAddressCheck (ret : Nat) : Meets (fun _ => True) (returnAddressCheck ret) := by
  obtain ⟨-, h⟩ | ⟨-, h⟩ := returnAddressCheck_cases ret <;> rw [h]
  · exact meets_ok trivial
  · exact meets_raiseAddress ret

theorem meets_memRead_pop (s : State) : Meets (fun _ => True) (memRead s.mem (popAddress s)) := by
  rw [popAddress, memRead_byte]
  exact meets_ok trivial

theorem meets_push (s : State) (v : Byte) : Meets (fun u => u.fcause = s.fcause) (storeAtSp s.decSp v) := by
  rw [storeAtSp_eq]
  exact meets_ok rfl

theorem meets_aluOnRegs (opn : AluToken) (s : State) (a b : RegIdx) : Meets (fun _ => True) (aluOnRegs opn s a b) := by
  unfold aluOnRegs
  cases alu opn (s.reg a) (s.reg b) with
  | ok v => exact meets_ok trivial
  | error e =>
    cases e with
    | divisionByZero | unsupportedOperation => exact meets_error (by simp [aluRaise])

theorem meets_fetchInstr (s : State) : Meets (fun _ => True) (fetchInstr s) := by
  obtain ⟨-, h⟩ | ⟨-, -, h⟩ | ⟨i, -, h⟩ := fetchInstr_cases s <;> rw [h]
  · exact meets_error (by simp [raiseOpcode])
  · exact meets_raiseAddress 256
  · exact meets_ok trivial

/-! ### What an instruction and a step can do to `FCAUSE` -/

/-- `t` is `s` after the entry of a fault that an instruction can raise. -/
def StepFaultEntered (s t : State) : Prop := ∃ r : Raise, r.cause ≠ .loadError ∧ t = takeFault r s

theorem commit_fcause_cases {s t : State} {x : Except Raise State} (h : commit s x = .next t)
    (hx : Meets (fun u => u.fcause = s.fcause) x) : t.fcause = s.fcause ∨ StepFaultEntered s t := by
  obtain rfl | ⟨r, rfl, ht⟩ := commit_next_cases h
  · exact .inl hx
  · exact .inr ⟨r, hx, ht⟩

theorem jumpIf_fcause_cases {taken : Bool} {a : Byte} {s t : State} (h : jumpIf taken a s = .next t) :
    t.fcause = s.fcause ∨ StepFaultEntered s t := by
  refine commit_fcause_cases h ((meets_regOperand a).bind fun _ _ => ?_)
  cases taken with
  | true => exact meets_ok rfl
  | false => exact (meets_advanceCheck _).bind fun _ _ => meets_ok rfl

/-- Everything an instruction can do to `FCAUSE`: keep it, or take a fault of its own. -/
theorem exec_fcause_cases {i : Instr} {s t : State} (h : exec i s = .next t) :
    t.fcause = s.fcause ∨ StepFaultEntered s t := by
  cases i with
  | hlt =>
    rw [exec_hlt h]
    exact .inl rfl
  | ret => exact commit_fcause_cases h ((meets_memRead_pop s).bind fun _ _ => meets_ok rfl)
  | push a =>
    exact commit_fcause_cases h ((meets_regOperand a).bind fun _ _ => (meets_advanceCheck _).bind fun _ _ =>
      (meets_push s _).bind fun _ hu => meets_ok hu)
  | pop a =>
    exact commit_fcause_cases h ((meets_regOperand a).bind fun _ _ => (meets_advanceCheck _).bind fun _ _ =>
      (meets_memRead_pop s).bind fun _ _ => meets_ok rfl)
  | call a =>
    exact commit_fcause_cases h ((meets_regOperand a).bind fun _ _ => (meets_returnAddressCheck _).bind fun _ _ =>
      (meets_push s _).bind fun _ hu => meets_ok hu)
  | jmp a => exact commit_fcause_cases h ((meets_regOperand a).bind fun _ _ => meets_ok rfl)
  | jeq a | jne a => exact jumpIf_fcause_cases h
  | prn a | ldi a imm =>
    exact commit_fcause_cases h ((meets_regOperand a).bind fun _ _ => (meets_advanceCheck _).bind fun _ _ =>
      meets_ok rfl)
  | add a b | mul a b | cmp a b =>
    exact commit_fcause_cases h ((meets_regOperand a).bind fun _ _ => (meets_regOperand b).bind fun _ _ =>
      (meets_advanceCheck _).bind fun _ _ => (meets_aluOnRegs _ s _ _).bind fun _ _ => meets_ok rfl)

/-- Everything a step can do to `FCAUSE`: keep it, or take a fault of the fetch or of the instruction. -/
theorem step_fcause_cases {s t : State} (h : step s = .next t) : t.fcause = s.fcause ∨ StepFaultEntered s t := by
  cases hrun : s.run with
  | halted =>
    obtain rfl := Host.Outcome.next.inj ((step_halted hrun).symm.trans h)
    exact .inl rfl
  | running =>
    obtain ⟨r, hfetch, ht⟩ | ⟨i, -, hexec⟩ := step_running_cases hrun h
    · have hcause : Meets (fun _ => True) (.error r : Except Raise Instr) := hfetch ▸ meets_fetchInstr s
      exact .inr ⟨r, hcause, ht⟩
    · exact exec_fcause_cases hexec

/-! ### The record that an entry leaves -/

/-- The codes of R107 but LoadError's 6. -/
theorem code_bounds_of_ne_loadError {c : Cause} (h : c ≠ .loadError) : 1 ≤ c.code.toNat ∧ c.code.toNat ≤ 5 := by
  cases c with
  | loadError => exact absurd rfl h
  | _ => decide

/-- The entry can be read back off the record it leaves: `FINFO` holds all of the info that `faulted` keeps. -/
theorem takeFault_eq_faulted_record (r : Raise) (s : State) :
    takeFault r s = faulted s (takeFault r s).fcause (takeFault r s).finfo.toNat := by
  have hinfo : BitVec.ofNat 9 (takeFault r s).finfo.toNat = (takeFault r s).finfo := by
    rw [BitVec.ofNat_toNat, BitVec.setWidth_eq]
  rw [faulted, hinfo]
  rfl

/-! ### The obligations -/

/-- Settles O34: a committed raise is the entry by definition, and a step that changes `FCAUSE` took one whose cause is
not LoadError. -/
theorem faultEntryIsPrecise : Obligations.FaultEntryIsPrecise := by
  refine ⟨fun s r _ _ => commit_error s r, fun s t h hclean hset => ?_⟩
  obtain hkept | ⟨r, hcause, rfl⟩ := step_fcause_cases h
  · exact absurd (hkept.trans hclean) hset
  · obtain ⟨hlow, hhigh⟩ := code_bounds_of_ne_loadError hcause
    exact ⟨hlow, hhigh, takeFault_eq_faulted_record r s⟩

end Sys2Proof.Machine

/-! PROOF. Scope: the status read, and the three cases it tells apart (R129). -/

namespace Sys2Proof.Machine

/-! ### What a report says: one equation per case of a status -/

theorem report_of_running {st : Status} (hrun : st.run = .running) : st.report = .running := by
  simp only [Status.report, hrun]

theorem report_of_halted_clean {st : Status} (hrun : st.run = .halted) (hclean : st.fcause = 0) :
    st.report = .haltedOrNeverStarted := by
  simp only [Status.report, hrun, if_pos hclean]

theorem report_of_halted_fault {st : Status} (hrun : st.run = .halted) (hfault : st.fcause ≠ 0) :
    st.report = .stoppedByFault := by
  simp only [Status.report, hrun, if_neg hfault]

/-- Each report is given for exactly one case of `RUN` and `FCAUSE`: the cases cover every status, and their reports
differ. -/
theorem report_iffs (st : Status) :
    (st.report = .running ↔ st.run = .running) ∧
      (st.report = .haltedOrNeverStarted ↔ st.run = .halted ∧ st.fcause = 0) ∧
      (st.report = .stoppedByFault ↔ st.run = .halted ∧ st.fcause ≠ 0) := by
  cases hrun : st.run with
  | running => simp [report_of_running hrun]
  | halted =>
    by_cases hcause : st.fcause = 0
    · simpa [report_of_halted_clean hrun hcause] using hcause
    · simpa [report_of_halted_fault hrun hcause] using hcause

/-! ### The obligations -/

/-- Settles O53: the status read copies the four elements, and its report is decided by `RUN` and then `FCAUSE`. -/
theorem statusTellsThreeCasesApart : Obligations.StatusTellsThreeCasesApart :=
  fun s => ⟨rfl, report_iffs (statusRead s)⟩

end Sys2Proof.Machine

/-! PROOF. Scope: the decoder and the encoder undo each other (R55, R59, R66), and which opcode bytes the decoder
rejects (R61). -/

namespace Sys2Proof

/-! ### What the decoder accepts -/

/-- The format makes instruction `i` of these operand bytes (R55). -/
inductive Form.Makes : Form → Instr → List Byte → Prop
  | f0 (i : Instr) : Makes (.f0 i) i []
  | f1 (mk : Byte → Instr) (a : Byte) : Makes (.f1 mk) (mk a) [a]
  | f2r (mk : Byte → Byte → Instr) (a b : Byte) : Makes (.f2r mk) (mk a b) [a, b]
  | f2i (mk : Byte → Byte → Instr) (a imm : Byte) : Makes (.f2i mk) (mk a imm) [a, imm]

theorem decode_of_makes {op : Byte} {form : Form} {i : Instr} {operands : List Byte} (rest : List Byte)
    (hlook : lookupOpcode op = some form) (hmakes : form.Makes i operands) :
    decode (op :: operands ++ rest) = .ok (i, rest) := by
  cases hmakes <;> simp [decode, hlook]

theorem makes_of_decode {op : Byte} {form : Form} {i : Instr} {bytes rest : List Byte}
    (hlook : lookupOpcode op = some form) (h : decode (op :: bytes) = .ok (i, rest)) :
    ∃ operands, bytes = operands ++ rest ∧ form.Makes i operands := by
  cases form with
  | f0 j =>
    obtain ⟨rfl, rfl⟩ : j = i ∧ bytes = rest := by simpa [decode, hlook] using h
    exact ⟨[], rfl, .f0 j⟩
  | f1 mk =>
    match bytes, h with
    | [], h => simp [decode, hlook] at h
    | a :: tail, h =>
      obtain ⟨rfl, rfl⟩ : mk a = i ∧ tail = rest := by simpa [decode, hlook] using h
      exact ⟨[a], rfl, .f1 mk a⟩
  | f2r mk | f2i mk =>
    match bytes, h with
    | [], h => simp [decode, hlook] at h
    | [_], h => simp [decode, hlook] at h
    | a :: b :: tail, h =>
      obtain ⟨rfl, rfl⟩ : mk a b = i ∧ tail = rest := by simpa [decode, hlook] using h
      exact ⟨[a, b], rfl, by constructor⟩

/-- Every row of the opcode map makes instructions that are encoded as the row says (R58, R66). -/
theorem opcodeTable_makes : ∀ row ∈ opcodeTable, ∀ i operands, row.form.Makes i operands →
    row.opcode = i.opcode ∧ operands = i.operands := by
  simp only [opcodeTable, List.forall_mem_cons]
  refine ⟨?_, ?_, ?_, ?_, ?_, ?_, ?_, ?_, ?_, ?_, ?_, ?_, ?_, by simp⟩
  all_goals
    rintro _ _ ⟨⟩
    exact ⟨rfl, rfl⟩

theorem mem_opcodeTable_of_lookup {op : Byte} {form : Form} (h : lookupOpcode op = some form) :
    ⟨op, form⟩ ∈ opcodeTable := by
  obtain ⟨⟨opcode, _⟩, hfind, rfl⟩ := Option.map_eq_some_iff.mp h
  obtain rfl : opcode = op := by simpa using List.find?_some hfind
  exact List.mem_of_find?_eq_some hfind

/-- The map gives every instruction's opcode byte the format that makes the instruction of its operand bytes. -/
theorem lookup_opcode_makes (i : Instr) : ∃ form, lookupOpcode i.opcode = some form ∧ form.Makes i i.operands := by
  cases i with
  | hlt | ret => exact ⟨_, rfl, .f0 _⟩
  | push a | pop a | prn a | call a | jmp a | jeq a | jne a => exact ⟨_, rfl, .f1 _ a⟩
  | ldi a imm => exact ⟨_, rfl, .f2i _ a imm⟩
  | add a b | mul a b | cmp a b => exact ⟨_, rfl, .f2r _ a b⟩

/-- The decoder accepts exactly the byte sequences that begin with an encoding. -/
theorem decode_eq_ok_iff {bytes rest : List Byte} {i : Instr} :
    decode bytes = .ok (i, rest) ↔ bytes = encode i ++ rest := by
  constructor
  · intro h
    cases bytes with
    | nil => simp [decode] at h
    | cons op bytes =>
      cases hlook : lookupOpcode op with
      | none => simp [decode, hlook] at h
      | some form =>
        obtain ⟨operands, rfl, hmakes⟩ := makes_of_decode hlook h
        obtain ⟨rfl, rfl⟩ := opcodeTable_makes _ (mem_opcodeTable_of_lookup hlook) i operands hmakes
        rfl
  · rintro rfl
    obtain ⟨form, hlook, hmakes⟩ := lookup_opcode_makes i
    exact decode_of_makes rest hlook hmakes

theorem decode_encode_append (i : Instr) (rest : List Byte) : decode (encode i ++ rest) = .ok (i, rest) :=
  decode_eq_ok_iff.mpr rfl

theorem encode_injective : Function.Injective encode := by
  intro i j h
  have hdecode := decode_encode_append i []
  rw [h, decode_encode_append j []] at hdecode
  exact (congrArg Prod.fst (Except.ok.inj hdecode)).symm

/-! ### What the decoder rejects by its opcode -/

/-- A defined opcode is never called unknown: what is then missing can only be an operand byte. -/
theorem decode_unknownOpcode_iff (op : Byte) (rest : List Byte) :
    decode (op :: rest) = .error (.unknownOpcode op) ↔ isOpcode op = false := by
  cases hlook : lookupOpcode op with
  | none => simp [decode, isOpcode, hlook]
  | some form =>
    have hdefined : isOpcode op = true := by simp [isOpcode, hlook]
    cases form with
    | f0 i => simp [decode, hlook, hdefined]
    | f1 mk => rcases rest with _ | ⟨a, rest⟩ <;> simp [decode, hlook, hdefined]
    | f2r mk | f2i mk => rcases rest with _ | ⟨a, _ | ⟨b, rest⟩⟩ <;> simp [decode, hlook, hdefined]

/-- The ranges of R61 are the gaps between the thirteen opcodes. -/
theorem isOpcode_eq_false_iff : ∀ op : Byte, isOpcode op = false ↔
    (op.toNat = 0x00 ∨ (0x02 ≤ op.toNat ∧ op.toNat ≤ 0x10) ∨ (0x12 ≤ op.toNat ∧ op.toNat ≤ 0x44) ∨
      (0x48 ≤ op.toNat ∧ op.toNat ≤ 0x4F) ∨ (0x51 ≤ op.toNat ∧ op.toNat ≤ 0x53) ∨
      (0x57 ≤ op.toNat ∧ op.toNat ≤ 0x81) ∨ (0x83 ≤ op.toNat ∧ op.toNat ≤ 0x9F) ∨ op.toNat = 0xA1 ∨
      (0xA3 ≤ op.toNat ∧ op.toNat ≤ 0xA6) ∨ 0xA8 ≤ op.toNat) := by
  decide

/-! ### The obligations -/

/-- Settles O1: an encoding is the opcode byte whose format reads exactly the operand bytes that follow it. -/
theorem decodeOfEncodeReturnsTheInstruction : Obligations.DecodeOfEncodeReturnsTheInstruction :=
  decode_encode_append

/-- Settles O2: every row of the map makes only instructions that are encoded as the row reads them. -/
theorem encodeOfDecodeReturnsTheBytes : Obligations.EncodeOfDecodeReturnsTheBytes :=
  fun _ _ _ => decode_eq_ok_iff.mp

/-- Settles O3: the decoder calls a byte unknown exactly when the map has no row for it. -/
theorem undefinedOpcodesAreTheListedRanges : Obligations.UndefinedOpcodesAreTheListedRanges :=
  fun op rest => (decode_unknownOpcode_iff op rest).trans (isOpcode_eq_false_iff op)

/-- Settles O4: each word is the encoding of its instruction. -/
theorem specExampleWordsDecode : Obligations.SpecExampleWordsDecode :=
  ⟨decode_encode_append (.add 0 1) [], decode_encode_append (.ldi 0 8) [], decode_encode_append (.prn 0) [],
    decode_encode_append (.pop 1) [], decode_encode_append (.call 2) [], decode_encode_append .ret [],
    decode_encode_append (.jne 3) []⟩

end Sys2Proof

/-! PROOF. Scope: the bytes at `pc` and the instruction they hold, for the step (R69) and the debug reads (R130). -/

namespace Sys2Proof.Machine

/-! ### The bytes at `pc` -/

/-- Of the three addresses from `pc` up, those within memory are the first ones. -/
theorem bytesAtPc_eq (s : State) :
    bytesAtPc s = (List.range (min 3 (256 - s.pc.toNat))).map fun k => s.mem.read (s.pc.toNat + k) := by
  have hpc : s.pc.toNat < 256 := s.pc.isLt
  unfold bytesAtPc
  congr 1
  obtain h | h | h : s.pc.toNat ≤ 253 ∨ s.pc.toNat = 254 ∨ s.pc.toNat = 255 := by omega
  · rw [Nat.min_eq_left (by omega), List.filter_eq_self]
    intro k hk
    rw [List.mem_range] at hk
    simp only [Config.memSize, decide_eq_true_eq]
    omega
  · rw [h]
    rfl
  · rw [h]
    rfl

theorem getElem_bytesAtPc (s : State) (k : Nat) (hk : k < (bytesAtPc s).length) :
    (bytesAtPc s)[k] = s.mem.read (s.pc.toNat + k) := by
  simp [bytesAtPc_eq]

/-- Bytes at `pc` that decode to an instruction hold it. -/
theorem holdsAtPc_of_decode {s : State} {i : Instr} {rest : List Byte} (h : decode (bytesAtPc s) = .ok (i, rest)) :
    HoldsAtPc s i := by
  have hbytes : bytesAtPc s = i.opcode :: i.operands ++ rest := decode_eq_ok_iff.mp h
  have hlength := congrArg List.length hbytes
  have hpc : s.pc.toNat < 256 := s.pc.isLt
  simp only [bytesAtPc_eq, List.length_map, List.length_range, List.length_append, List.length_cons] at hlength
  have hread : ∀ k (hk : k < (i.opcode :: i.operands ++ rest).length),
      (i.opcode :: i.operands ++ rest)[k] = s.mem.read (s.pc.toNat + k) := by
    rw [← hbytes]
    exact getElem_bytesAtPc s
  refine ⟨(hread 0 (by simp)).symm, by omega, fun k hk => ?_⟩
  have hoperand := hread (k + 1) (by simp; omega)
  rw [Nat.add_assoc, Nat.add_comm 1 k, ← hoperand]
  simp [hk]

/-! ### The instruction held at `pc` is the one fetched -/

theorem HoldsAtPc.fetchInstr_eq {s : State} {i : Instr} (h : HoldsAtPc s i) : fetchInstr s = .ok i := by
  have ⟨hop, hin, _⟩ := h
  obtain ⟨j, hj, hholds⟩ := fetchInstr_ok (s := s) (by rw [hop, isOpcode_opcode]) (by rwa [hop, operandCount_opcode])
  obtain rfl : j = i := encode_injective (hholds.encode_eq.trans h.encode_eq.symm)
  exact hj

theorem HoldsAtPc.step_eq {s : State} {i : Instr} (h : HoldsAtPc s i) (hrun : s.run = .running) :
    step s = exec i s := by
  rw [step_running hrun, h.fetchInstr_eq]

/-! ### The obligations -/

/-- Settles O5: the bytes that decode are those the step fetches. -/
theorem stepRunsTheDecodedInstruction : Obligations.StepRunsTheDecodedInstruction :=
  fun _ _ _ hrun hdecode => (holdsAtPc_of_decode hdecode).step_eq hrun

/-- Settles O54: the reads are the state's own elements, and the next cells are the bytes at `pc`. -/
theorem debugReadsShowTheState : Obligations.DebugReadsShowTheState := by
  intro s
  refine ⟨fun addr => ⟨fun hin => if_pos (Nat.lt_succ_of_le hin), fun hout => if_neg (Nat.not_lt.mpr hout)⟩,
    fun _ => rfl, rfl, rfl, fun hpc => ?_, fun hpc => ?_, fun hpc => ?_⟩
  · have hthree : min 3 (256 - s.pc.toNat) = 3 := by omega
    rw [debugNextCells, bytesAtPc_eq, hthree]
    rfl
  · rw [debugNextCells, bytesAtPc_eq, hpc]
    rfl
  · rw [debugNextCells, bytesAtPc_eq, hpc]
    rfl

end Sys2Proof.Machine

/-! PROOF. Scope: memory as read after write (R44, R48), the ALU function on every token (R82 to R88), and the values
after reset (R35, R122). -/

namespace Sys2Proof.Machine

/-! ### Memory -/

theorem memWrite_eq_ok_iff {m m' : Memory} {addr : Nat} {v : Byte} :
    memWrite m addr v = .ok m' ↔ addr < Config.memSize ∧ m' = m.write addr v := by
  by_cases h : addr < Config.memSize
  · simp [memWrite_ok h, h, eq_comm]
  · simp [memWrite_error (Nat.not_lt.mp h), h]

/-- Two reads of one address answer alike when its cells are alike, within memory and past it. -/
theorem memRead_congr {m m' : Memory} {addr : Nat} (h : m'.read addr = m.read addr) :
    memRead m' addr = memRead m addr := by
  rw [memRead, memRead, h]

/-- In canonical form, a second write of the same byte finds nothing to change. -/
theorem Memory.write_write_same {m : Memory} {addr : Nat} (v : Byte) (hwf : m.wf = true)
    (haddr : addr < Config.memSize) : (m.write addr v).write addr v = m.write addr v := by
  have hwf' := wf_write m v hwf haddr
  refine eq_of_read_eq _ _ (wf_write _ v hwf' haddr) hwf' fun other => ?_
  by_cases h : other = addr
  · rw [h, read_write_same, read_write_same]
  · rw [read_write_other _ v h]

/-! ### The ALU -/

/-- Of the three codes, `compareCode` gives the one that its case of the comparison has, and no other. -/
theorem compareCode_iffs (x y : Byte) :
    (compareCode x y = 1 ↔ x.toNat = y.toNat) ∧ (compareCode x y = 2 ↔ x.toNat < y.toNat) ∧
      (compareCode x y = 3 ↔ y.toNat < x.toNat) := by
  obtain ⟨h, hcode⟩ | ⟨h, hcode⟩ | ⟨h, hcode⟩ := compareCode_cases x y <;> rw [hcode] <;> simp <;> omega

/-- A quotient of bytes is a byte, so narrowing leaves it as it is. -/
theorem trunc8_quotient (x y : Byte) : (trunc8 (x.toNat / y.toNat : Nat)).toNat = x.toNat / y.toNat := by
  have hfit : x.toNat / y.toNat < 2 ^ 8 := (Nat.div_le_self _ _).trans_lt x.isLt
  rw [trunc8_natCast, BitVec.toNat_ofNat, Nat.mod_eq_of_lt hfit]

/-! ### The obligations -/

/-- Settles O40: a write that is accepted is `Memory.write`, and one cell of it is read back. -/
theorem memoryReadsTheLastWrite : Obligations.MemoryReadsTheLastWrite := by
  intro m m' addr v h
  obtain ⟨haddr, rfl⟩ := memWrite_eq_ok_iff.mp h
  refine ⟨?_, fun other hother => memRead_congr (Memory.read_write_other m v hother), fun hwf => ⟨?_, ?_⟩⟩
  · rw [memRead_ok haddr, Memory.read_write_same]
  · exact Memory.wf_write m v hwf haddr
  · rw [memWrite_ok haddr, Memory.write_write_same v hwf haddr]

/-- Settles O42, token by token: the exact integer result, narrowed. -/
theorem aluComputesModulo256 : Obligations.AluComputesModulo256 := by
  intro x y
  refine ⟨⟨_, rfl, ?_⟩, ⟨_, rfl, trunc8_toNat _⟩, ⟨_, rfl, ?_⟩, fun hzero => if_pos hzero, fun hne => ?_,
    ⟨_, rfl, compareCode_iffs x y⟩, fun _ => rfl⟩
  · exact_mod_cast trunc8_toNat (x.toNat + y.toNat)
  · exact_mod_cast trunc8_toNat (x.toNat * y.toNat)
  · exact ⟨_, if_neg hne, trunc8_quotient x y⟩

/-- Settles O43: the registers other than R7 are checked one by one, and an empty memory lists no cell. -/
theorem resetValues : Obligations.ResetValues := by
  have hregs : ∀ r : RegIdx, r ≠ 7 → State.reset.reg r = 0x00 := by decide
  exact ⟨rfl, hregs, rfl, rfl, rfl, rfl, rfl, rfl, Memory.read_nil, rfl⟩

/-- Settles O48: a host reset is `State.reset` but for the events already delivered. -/
theorem resetReinitialisesEveryElement : Obligations.ResetReinitialisesEveryElement := by
  intro s
  obtain ⟨hrun, hregs, hsp, hfl, hpc, hfcause, hfpc, hfinfo, hmem, -⟩ := resetValues
  exact ⟨hostReset s, rfl, hrun, hregs, hsp, hfl, hpc, hfcause, hfpc, hfinfo, hmem, rfl⟩

end Sys2Proof.Machine

/-! PROOF. Scope: PUSH, POP and CALL (R96, R97, R100), which check one register and then one address. -/

namespace Sys2Proof.Machine

/-! ### What the three do once their checks pass -/

/-- A register read after the decrement of `SP` (the spec's decision D14). -/
theorem reg_decSp (s : State) (ra : RegIdx) : s.decSp.reg ra = if ra = 7 then s.reg 7 - 1 else s.reg ra := by
  rw [decSp_eq, State.reg_setReg]
  simp only [spIdx, eq_comm, State.sp]

/-- The push of a byte, which PUSH and CALL share: `SP` is decremented and the byte stored there. -/
theorem storeAtSp_decSp (s : State) (v : Byte) :
    storeAtSp s.decSp v = .ok { s.decSp with mem := s.mem.write (s.reg 7 - 1).toNat v } := by
  rw [storeAtSp_eq, decSp_eq, setReg_spIdx_sp]
  rfl

/-- `SP` is read for its increment after a write that may be to `SP` itself (the spec's decision D14). -/
theorem incSp_setReg (s : State) (ra : RegIdx) (v : Byte) :
    (s.setReg ra v).incSp = { s with
      regs := if ra = 7 then s.regs.set 7 (v + 1) else (s.regs.set ra v).set 7 (s.reg 7 + 1) } := by
  rw [incSp_eq, State.sp, State.reg_setReg, spIdx]
  by_cases h : ra = 7
  · subst h
    simp [State.setReg]
  · rw [if_neg h, if_neg h]
    rfl

/-- What PUSH leaves (R96). -/
def afterPush (s : State) (ra : RegIdx) : State :=
  { s with
    regs := s.regs.set 7 (s.reg 7 - 1)
    mem := s.mem.write (s.reg 7 - 1).toNat (if ra = 7 then s.reg 7 - 1 else s.reg ra)
    pc := BitVec.ofNat 8 (s.pc.toNat + 2) }

theorem checksOneRegister_push : ChecksOneRegister 1 .push afterPush := by
  intro a s
  simp only [exec, execPush, storeAtSp_decSp, ok_bind, reg_decSp]
  rw [decSp_eq]
  rfl

/-- What POP leaves (R97). -/
def afterPop (s : State) (ra : RegIdx) : State :=
  { s with
    regs := if ra = 7 then s.regs.set 7 (s.mem.read (s.reg 7).toNat + 1)
            else (s.regs.set ra (s.mem.read (s.reg 7).toNat)).set 7 (s.reg 7 + 1)
    pc := BitVec.ofNat 8 (s.pc.toNat + 2) }

theorem checksOneRegister_pop : ChecksOneRegister 1 .pop afterPop := by
  intro a s
  have hread : memRead s.mem (popAddress s) = .ok (s.mem.read (s.reg 7).toNat) := memRead_byte s.mem s.sp
  simp only [exec, execPop, hread, ok_bind, incSp_setReg]
  rfl

/-- What CALL leaves (R100). -/
def afterCall (s : State) (ra : RegIdx) : State :=
  { s with
    regs := s.regs.set 7 (s.reg 7 - 1)
    mem := s.mem.write (s.reg 7 - 1).toNat (BitVec.ofNat 8 (s.pc.toNat + 2))
    pc := if ra = 7 then s.reg 7 - 1 else s.reg ra }

/-- CALL's check of its return address is the advance check (R76, R100). -/
theorem checksOneRegister_call : ChecksOneRegister 1 .call afterCall := by
  intro a s
  simp only [exec, execCall, storeAtSp_decSp, ok_bind, State.setPc_byte, State.withMem_reg, reg_decSp, trunc8_natCast]
  rw [decSp_eq]
  rfl

/-- The form that the statements about PUSH, POP and CALL share. -/
theorem ChecksOneRegister.exec_effect_and_faults {mk : Byte → Instr} {after : State → RegIdx → State}
    (h : ChecksOneRegister 1 mk after) (s : State) (ra : RegIdx) :
    (s.pc.toNat + 2 ≤ 255 → exec (mk (regByte ra)) s = .next (after s ra)) ∧
    (255 < s.pc.toNat + 2 → exec (mk (regByte ra)) s = .next (faulted s 1 (s.pc.toNat + 2))) ∧
    (∀ bad : Byte, 8 ≤ bad.toNat → exec (mk bad) s = .next (faulted s 2 bad.toNat)) :=
  ⟨h.exec_within s ra, h.exec_past s ra rfl, fun _ => h.exec_bad s⟩

/-! ### The obligations -/

/-- Settles O18: the store never faults, so PUSH's checks are those of its register and its advance. -/
theorem pushDecrementsAndStores : Obligations.PushDecrementsAndStores :=
  ⟨checksOneRegister_push.exec_effect_and_faults, operandFetchFaults rfl, fun _ _ => rfl⟩

/-- Settles O19: the read at `SP` never faults, and `SP` is incremented after the register is written. -/
theorem popLoadsAndIncrements : Obligations.PopLoadsAndIncrements :=
  ⟨checksOneRegister_pop.exec_effect_and_faults, operandFetchFaults rfl, fun _ _ => rfl⟩

/-- Settles O21: CALL is a push of the return address and then a jump through the register. -/
theorem callPushesTheReturnAddress : Obligations.CallPushesTheReturnAddress :=
  ⟨checksOneRegister_call.exec_effect_and_faults, operandFetchFaults rfl, fun _ _ => rfl⟩

end Sys2Proof.Machine

/-! PROOF. Scope: everything an instruction can do, said once: how each completes, and what each raises (R74 to R78). -/

namespace Sys2Proof.Machine

/-! ### The two ways an instruction ends -/

/-- Instruction `i` can complete in `s` and leave `t`. -/
inductive Completes (s : State) : Instr → State → Prop
  | hlt : Completes s .hlt { s with run := .halted }
  | ret : Completes s .ret { s with regs := s.regs.set 7 (s.reg 7 + 1), pc := s.mem.read (s.reg 7).toNat }
  | push (ra : RegIdx) (hin : nextPc s 1 ≤ 255) : Completes s (.push (regByte ra)) (afterPush s ra)
  | pop (ra : RegIdx) (hin : nextPc s 1 ≤ 255) : Completes s (.pop (regByte ra)) (afterPop s ra)
  | prn (ra : RegIdx) (hin : nextPc s 1 ≤ 255) :
      Completes s (.prn (regByte ra)) ((s.emit (s.reg ra)).setPc (nextPc s 1))
  | call (ra : RegIdx) (hin : nextPc s 1 ≤ 255) : Completes s (.call (regByte ra)) (afterCall s ra)
  | jmp (ra : RegIdx) : Completes s (.jmp (regByte ra)) { s with pc := s.reg ra }
  | jeqTaken (ra : RegIdx) (hfl : s.fl = 0x01) : Completes s (.jeq (regByte ra)) { s with pc := s.reg ra }
  | jeqNext (ra : RegIdx) (hfl : s.fl ≠ 0x01) (hin : nextPc s 1 ≤ 255) :
      Completes s (.jeq (regByte ra)) (s.setPc (nextPc s 1))
  | jneTaken (ra : RegIdx) (hfl : s.fl ≠ 0x01) : Completes s (.jne (regByte ra)) { s with pc := s.reg ra }
  | jneNext (ra : RegIdx) (hfl : s.fl = 0x01) (hin : nextPc s 1 ≤ 255) :
      Completes s (.jne (regByte ra)) (s.setPc (nextPc s 1))
  | ldi (ra : RegIdx) (imm : Byte) (hin : nextPc s 2 ≤ 255) :
      Completes s (.ldi (regByte ra) imm) ((s.setReg ra imm).setPc (nextPc s 2))
  | add (ra rb : RegIdx) (hin : nextPc s 2 ≤ 255) : Completes s (.add (regByte ra) (regByte rb))
      ((s.setReg ra (BitVec.ofNat 8 ((s.reg ra).toNat + (s.reg rb).toNat))).setPc (nextPc s 2))
  | mul (ra rb : RegIdx) (hin : nextPc s 2 ≤ 255) : Completes s (.mul (regByte ra) (regByte rb))
      ((s.setReg ra (BitVec.ofNat 8 ((s.reg ra).toNat * (s.reg rb).toNat))).setPc (nextPc s 2))
  | cmp (ra rb : RegIdx) (hin : nextPc s 2 ≤ 255) : Completes s (.cmp (regByte ra) (regByte rb))
      ((s.setFl (compareCode (s.reg ra) (s.reg rb))).setPc (nextPc s 2))

/-- The first register byte of `i` that names no register. -/
def badRegister? (i : Instr) : Option Byte := i.regFields.find? fun g => decide (8 ≤ g.toNat)

/-- An instruction whose checks include that of the next address: CALL, and those that continue sequentially. -/
def ChecksNextAddress (s : State) (i : Instr) : Prop := ContinuesSequentially s i ∨ ∃ a, i = .call a

/-- Instruction `i` can raise `r` in `s`: for its first bad register byte, or, all of them good, for the address after
it. -/
inductive Raises (s : State) (i : Instr) : Raise → Prop
  | register {f : Byte} (hbad : badRegister? i = some f) : Raises s i (raiseRegister f)
  | address (hgood : badRegister? i = none) (hi : ChecksNextAddress s i)
      (hpast : 255 < nextPc s i.operands.length) : Raises s i (raiseAddress (nextPc s i.operands.length))

/-- The computation `x` ends as instruction `i` can. -/
def Leads (s : State) (i : Instr) (x : Except Raise State) : Prop :=
  (∃ t, x = .ok t ∧ Completes s i t) ∨ ∃ r, x = .error r ∧ Raises s i r

/-! ### A rule per check -/

section
variable {s : State} {i : Instr} {a b : Byte}

theorem leads_ok {t : State} (h : Completes s i t) : Leads s i (.ok t) := .inl ⟨t, rfl, h⟩

/-- A register check that fails reports its byte if the bytes before it were good. -/
theorem leads_register {f : RegIdx → Except Raise State} (hbad : 8 ≤ a.toNat → badRegister? i = some a)
    (hf : ∀ ra, a = regByte ra → Leads s i (f ra)) : Leads s i (regOperand a >>= f) := by
  obtain ⟨ra, hra, hok⟩ | ⟨hlarge, herror⟩ := regOperand_cases a
  · rw [hok]
    exact hf ra hra
  · rw [herror]
    exact .inr ⟨_, rfl, .register (hbad hlarge)⟩

theorem leads_advance {n : Nat} {t : State} (hgood : badRegister? i = none) (hn : i.operands.length = n)
    (hi : ChecksNextAddress s i) (h : nextPc s n ≤ 255 → Completes s i t) :
    Leads s i (advanceCheck (nextPc s n) >>= fun _ => .ok t) := by
  subst hn
  obtain ⟨hin, hok⟩ | ⟨hpast, herror⟩ := advanceCheck_cases (nextPc s i.operands.length)
  · rw [hok]
    exact leads_ok (h hin)
  · rw [herror]
    exact .inr ⟨_, rfl, .address hgood hi hpast⟩

/-- With one register field, a bad byte in it is the first bad one. -/
theorem leads_soleRegister {f : RegIdx → Except Raise State} (hfields : i.regFields = [a])
    (hf : ∀ ra, a = regByte ra → Leads s i (f ra)) : Leads s i (regOperand a >>= f) :=
  leads_register (fun hlarge => by simp [badRegister?, hfields, hlarge]) hf

theorem leads_oneRegister {n : Nat} {after : RegIdx → State} (hfields : i.regFields = [a])
    (hn : i.operands.length = n) (hi : ChecksNextAddress s i)
    (h : ∀ ra, a = regByte ra → nextPc s n ≤ 255 → Completes s i (after ra)) :
    Leads s i (do
      let ra ← regOperand a
      advanceCheck (nextPc s n)
      return after ra) := by
  refine leads_soleRegister hfields fun ra hra => leads_advance ?_ hn hi (h ra hra)
  simp [badRegister?, hfields, hra]

theorem leads_twoRegisters {n : Nat} {after : RegIdx → RegIdx → State} (hfields : i.regFields = [a, b])
    (hn : i.operands.length = n) (hi : ChecksNextAddress s i)
    (h : ∀ ra rb, a = regByte ra → b = regByte rb → nextPc s n ≤ 255 → Completes s i (after ra rb)) :
    Leads s i (do
      let ra ← regOperand a
      let rb ← regOperand b
      advanceCheck (nextPc s n)
      return after ra rb) := by
  refine leads_register (fun hlarge => ?_) fun ra hra => leads_register (fun hlarge => ?_) fun rb hrb =>
    leads_advance ?_ hn hi (h ra rb hra hrb)
  · simp [badRegister?, hfields, hlarge]
  · simp [badRegister?, hfields, hra, hlarge]
  · simp [badRegister?, hfields, hra, hrb]

end

/-! ### Every instruction -/

/-- Instruction `i` answers a state, by completing or by the entry of a fault. -/
def Ends (s : State) (i : Instr) : Prop :=
  ∃ t, exec i s = .next t ∧ (Completes s i t ∨ ∃ r, Raises s i r ∧ t = takeFault r s)

theorem ends_of_leads {s : State} {i : Instr} {x : Except Raise State} (hx : exec i s = commit s x)
    (h : Leads s i x) : Ends s i := by
  obtain ⟨t, rfl, ht⟩ | ⟨r, rfl, hr⟩ := h
  · exact ⟨t, hx, .inl ht⟩
  · exact ⟨_, hx, .inr ⟨r, hr, rfl⟩⟩

theorem ends_of_jumpIf {s : State} {i : Instr} {a : Byte} {taken : Bool} (hx : exec i s = jumpIf taken a s)
    (hfields : i.regFields = [a]) (hn : i.operands.length = 1)
    (hjump : taken = true → ∀ ra, a = regByte ra → Completes s i { s with pc := s.reg ra })
    (hseq : taken = false → ContinuesSequentially s i)
    (hnext : taken = false → ∀ ra, a = regByte ra → nextPc s 1 ≤ 255 → Completes s i (s.setPc (nextPc s 1))) :
    Ends s i := by
  cases taken with
  | true =>
    refine ends_of_leads hx (leads_soleRegister hfields fun ra hra => ?_)
    rw [if_pos rfl, State.setPc_byte]
    exact leads_ok (hjump rfl ra hra)
  | false => exact ends_of_leads hx (leads_oneRegister hfields hn (.inl (hseq rfl)) (hnext rfl))

/-- Everything an instruction can do. -/
theorem exec_ends (s : State) (i : Instr) : Ends s i := by
  cases i with
  | hlt => exact ⟨_, rfl, .inl .hlt⟩
  | ret => exact ⟨_, exec_ret s, .inl .ret⟩
  | push a =>
    exact ends_of_leads (checksOneRegister_push a s)
      (leads_oneRegister rfl rfl (.inl trivial) fun ra hra hin => hra ▸ .push ra hin)
  | pop a =>
    exact ends_of_leads (checksOneRegister_pop a s)
      (leads_oneRegister rfl rfl (.inl trivial) fun ra hra hin => hra ▸ .pop ra hin)
  | prn a =>
    exact ends_of_leads (checksOneRegister_prn a s)
      (leads_oneRegister rfl rfl (.inl trivial) fun ra hra hin => hra ▸ .prn ra hin)
  | call a =>
    exact ends_of_leads (checksOneRegister_call a s)
      (leads_oneRegister rfl rfl (.inr ⟨a, rfl⟩) fun ra hra hin => hra ▸ .call ra hin)
  | ldi a imm =>
    exact ends_of_leads (checksOneRegister_ldi imm a s)
      (leads_oneRegister rfl rfl (.inl trivial) fun ra hra hin => hra ▸ .ldi ra imm hin)
  | jmp a =>
    refine ends_of_leads rfl (leads_soleRegister rfl ?_)
    rintro ra rfl
    rw [State.setPc_byte]
    exact leads_ok (.jmp ra)
  | jeq a =>
    have hne : s.flagEqual = false → s.fl ≠ 0x01 := (flagEqual_eq_false_iff s).mp
    exact ends_of_jumpIf (taken := s.flagEqual) rfl rfl rfl
      (fun htest ra hra => hra ▸ .jeqTaken ra ((flagEqual_eq_true_iff s).mp htest)) hne
      (fun htest ra hra => hra ▸ .jeqNext ra (hne htest))
  | jne a =>
    have heq : (!s.flagEqual) = false → s.fl = 0x01 := by simp [flagEqual_eq_true_iff]
    exact ends_of_jumpIf (taken := !s.flagEqual) rfl rfl rfl
      (fun htest ra hra => hra ▸ .jneTaken ra (by simpa [flagEqual_eq_false_iff] using htest)) heq
      (fun htest ra hra => hra ▸ .jneNext ra (heq htest))
  | add a b =>
    exact ends_of_leads (checksTwoRegisters_add a b s)
      (leads_twoRegisters rfl rfl (.inl trivial) fun ra rb hra hrb hin => hra ▸ hrb ▸ .add ra rb hin)
  | mul a b =>
    exact ends_of_leads (checksTwoRegisters_mul a b s)
      (leads_twoRegisters rfl rfl (.inl trivial) fun ra rb hra hrb hin => hra ▸ hrb ▸ .mul ra rb hin)
  | cmp a b =>
    exact ends_of_leads (checksTwoRegisters_cmp a b s)
      (leads_twoRegisters rfl rfl (.inl trivial) fun ra rb hra hrb hin => hra ▸ hrb ▸ .cmp ra rb hin)

/-- The same, of a state that an instruction answers. -/
theorem exec_cases {s t : State} {i : Instr} (h : exec i s = .next t) :
    Completes s i t ∨ ∃ r, Raises s i r ∧ t = takeFault r s := by
  obtain ⟨u, hu, hends⟩ := exec_ends s i
  obtain rfl : u = t := Host.Outcome.next.inj (hu.symm.trans h)
  exact hends

end Sys2Proof.Machine

/-! PROOF. Scope: the rules of the engine that hold of every instruction: the register check (R74), the sequential
advance (R76), the order of the faults (R78), and how a step ends (R68). -/

namespace Sys2Proof.Machine

/-! ### Register bytes and well-formedness -/

theorem badRegister?_eq_none_iff (i : Instr) : badRegister? i = none ↔ i.wellFormed = true := by
  simp [badRegister?, Instr.wellFormed, namesRegister]

theorem badRegister?_large {i : Instr} {f : Byte} (h : badRegister? i = some f) : 8 ≤ f.toNat := by
  simpa using List.find?_some h

/-- The first operand byte of an instruction is a register field. -/
theorem badRegister?_of_first_large {i : Instr} {a : Byte} {tail : List Byte} (hi : i.operands = a :: tail)
    (ha : 8 ≤ a.toNat) : badRegister? i = some a := by
  cases i with
  | hlt | ret => cases hi
  | push b | pop b | prn b | call b | jmp b | jeq b | jne b | ldi b imm | add b c | mul b c | cmp b c =>
    obtain rfl : b = a := (List.cons.inj hi).1
    simp [badRegister?, Instr.regFields, ha]

/-! ### Instructions that complete -/

theorem Completes.noBadRegister {s t : State} {i : Instr} (h : Completes s i t) : badRegister? i = none := by
  cases h <;> simp [badRegister?, Instr.regFields]

theorem Completes.record {s t : State} {i : Instr} (h : Completes s i t) :
    t.fcause = s.fcause ∧ t.fpc = s.fpc ∧ t.finfo = s.finfo := by
  cases h <;> exact ⟨rfl, rfl, rfl⟩

theorem Completes.run {s t : State} {i : Instr} (h : Completes s i t) (hi : i ≠ .hlt) : t.run = s.run := by
  cases h with
  | hlt => exact absurd rfl hi
  | _ => rfl

theorem Completes.status {s t : State} {i : Instr} (h : Completes s i t) (hi : i ≠ .hlt) : StatusUnchanged s t :=
  ⟨h.run hi, h.record⟩

theorem Completes.nextPc_le {s t : State} {i : Instr} (h : Completes s i t) (hi : ChecksNextAddress s i) :
    nextPc s i.operands.length ≤ 255 := by
  cases h with
  | hlt | ret | jmp => simp [ChecksNextAddress, ContinuesSequentially] at hi
  | jeqTaken _ hfl | jneTaken _ hfl => exact absurd hfl (by simpa [ChecksNextAddress, ContinuesSequentially] using hi)
  | push _ hin | pop _ hin | prn _ hin | call _ hin | jeqNext _ _ hin | jneNext _ _ hin | ldi _ _ hin
  | add _ _ hin | mul _ _ hin | cmp _ _ hin => exact hin

theorem Completes.sequential_pc {s t : State} {i : Instr} (h : Completes s i t) (hi : ContinuesSequentially s i) :
    t.pc = BitVec.ofNat 8 (nextPc s i.operands.length) := by
  cases h with
  | hlt | ret | call | jmp => exact hi.elim
  | jeqTaken _ hfl => exact absurd hfl hi
  | jneTaken _ hfl => exact absurd hi hfl
  | _ => rfl

/-! ### What `exec` answers, by its checks -/

theorem exec_of_badRegister {s : State} {i : Instr} {f : Byte} (h : badRegister? i = some f) :
    exec i s = .next (faulted s 2 f.toNat) := by
  obtain ⟨t, ht, hcompletes | ⟨r, hraises, rfl⟩⟩ := exec_ends s i
  · simp [hcompletes.noBadRegister] at h
  · cases hraises with
    | register hbad =>
      obtain rfl := Option.some.inj (hbad.symm.trans h)
      exact ht
    | address hgood => simp [hgood] at h

theorem exec_of_next_past {s : State} {i : Instr} (hwf : i.wellFormed = true) (hi : ChecksNextAddress s i)
    (hpast : 255 < nextPc s i.operands.length) : exec i s = .next (faulted s 1 (nextPc s i.operands.length)) := by
  have hgood := (badRegister?_eq_none_iff i).mpr hwf
  obtain ⟨t, ht, hcompletes | ⟨r, hraises, rfl⟩⟩ := exec_ends s i
  · exact absurd (hcompletes.nextPc_le hi) (Nat.not_le.mpr hpast)
  · cases hraises with
    | register hbad => simp [hgood] at hbad
    | address => exact ht

theorem exec_of_next_within {s : State} {i : Instr} (hwf : i.wellFormed = true)
    (hin : nextPc s i.operands.length ≤ 255) : ∃ t, exec i s = .next t ∧ Completes s i t := by
  have hgood := (badRegister?_eq_none_iff i).mpr hwf
  obtain ⟨t, ht, hcompletes | ⟨r, hraises, rfl⟩⟩ := exec_ends s i
  · exact ⟨t, ht, hcompletes⟩
  · cases hraises with
    | register hbad => simp [hgood] at hbad
    | address _ _ hpast => exact absurd hin (Nat.not_le.mpr hpast)

/-! ### Everything a running step can do -/

/-- A step in `s` can raise `r`: no address but 256, from 253 up; a register byte above 7; or the undefined opcode at
`pc`. -/
inductive StepRaises (s : State) : Raise → Prop
  | opcode (h : isOpcode (s.mem.read s.pc.toNat) = false) : StepRaises s (raiseOpcode (s.mem.read s.pc.toNat))
  | address (h : 253 ≤ s.pc.toNat) : StepRaises s (raiseAddress 256)
  | register {f : Byte} (h : 8 ≤ f.toNat) : StepRaises s (raiseRegister f)

/-- The operand bytes having been fetched, the only address past 255 that is left is 256. -/
theorem HoldsAtPc.stepRaises {s : State} {i : Instr} {r : Raise} (h : HoldsAtPc s i) (hr : Raises s i r) :
    StepRaises s r := by
  obtain ⟨-, hin, -⟩ := h
  have hcount : i.operands.length ≤ 2 := by
    rw [← operandCount_opcode]
    exact operandCount_le_two (isOpcode_opcode i)
  cases hr with
  | register hbad => exact .register (badRegister?_large hbad)
  | address _ _ hpast =>
    have hnext : nextPc s i.operands.length = 256 := by
      unfold nextPc at hpast ⊢
      omega
    rw [hnext]
    unfold nextPc at hnext
    exact .address (by omega)

theorem step_running_ends {s : State} (hrun : s.run = .running) :
    (∃ r, StepRaises s r ∧ step s = .next (takeFault r s)) ∨
      ∃ i t, HoldsAtPc s i ∧ Completes s i t ∧ step s = .next t := by
  obtain ⟨hop, hfetch⟩ | ⟨hop, hpast, hfetch⟩ | ⟨i, hholds, -⟩ := fetchInstr_cases s
  · exact .inl ⟨_, .opcode hop, step_of_fetchInstr_error hrun hfetch⟩
  · have hcount := operandCount_le_two hop
    exact .inl ⟨_, .address (by omega), step_of_fetchInstr_error hrun hfetch⟩
  · have hstep := hholds.step_eq hrun
    obtain ⟨t, ht, hcompletes | ⟨r, hraises, rfl⟩⟩ := exec_ends s i
    · exact .inr ⟨i, t, hholds, hcompletes, hstep.trans ht⟩
    · exact .inl ⟨r, hholds.stepRaises hraises, hstep.trans ht⟩

/-! ### The instruction that given bytes at `pc` hold -/

theorem holdsAtPc_of_one_operand {s : State} {i : Instr} {a : Byte} (hop : s.mem.read s.pc.toNat = i.opcode)
    (hi : i.operands = [a]) (ha : s.mem.read (s.pc.toNat + 1) = a) (hin : s.pc.toNat + 1 ≤ 255) : HoldsAtPc s i := by
  refine ⟨hop, by simpa [hi] using hin, fun k hk => ?_⟩
  obtain rfl : k = 0 := by simpa [hi] using hk
  simp [hi, ha]

theorem holdsAtPc_of_two_operands {s : State} {i : Instr} {a b : Byte} (hop : s.mem.read s.pc.toNat = i.opcode)
    (hi : i.operands = [a, b]) (ha : s.mem.read (s.pc.toNat + 1) = a) (hb : s.mem.read (s.pc.toNat + 2) = b)
    (hin : s.pc.toNat + 2 ≤ 255) : HoldsAtPc s i := by
  refine ⟨hop, by simpa [hi] using hin, fun k hk => ?_⟩
  obtain rfl | rfl : k = 0 ∨ k = 1 := by
    simp only [hi, List.length_cons, List.length_nil] at hk
    omega
  · simp [hi, ha]
  · simp [hi, hb, Nat.add_assoc]

/-- The operand bytes are in memory and name registers, and the next address is 256. -/
theorem HoldsAtPc.step_next_past {s : State} {i : Instr} (h : HoldsAtPc s i) (hrun : s.run = .running)
    (hwf : i.wellFormed = true) (hi : ChecksNextAddress s i) (hnext : nextPc s i.operands.length = 256) :
    step s = .next (faulted s 1 256) := by
  rw [h.step_eq hrun, exec_of_next_past hwf hi (by omega), hnext]

/-! ### The order of the faults -/

theorem wellFormed_of_regFields_all_le {i : Instr} (h : ∀ f ∈ i.regFields, f.toNat ≤ 7) : i.wellFormed = true := by
  simp only [Instr.wellFormed, List.all_eq_true, namesRegister, decide_eq_true_eq]
  exact fun f hf => Nat.lt_succ_of_le (h f hf)

/-- The operand bytes having been fetched, the first of them is the first register byte. -/
theorem step_of_first_operand_large {s : State} (hrun : s.run = .running)
    (hop : isOpcode (s.mem.read s.pc.toNat) = true) (hone : 1 ≤ operandCount (s.mem.read s.pc.toNat))
    (hin : s.pc.toNat + operandCount (s.mem.read s.pc.toNat) ≤ 255)
    (hbad : 8 ≤ (s.mem.read (s.pc.toNat + 1)).toNat) :
    step s = .next (faulted s 2 (s.mem.read (s.pc.toNat + 1)).toNat) := by
  obtain ⟨i, -, hholds⟩ := fetchInstr_ok hop hin
  rw [hholds.step_eq hrun]
  obtain ⟨hopcode, -, hbytes⟩ := hholds
  rw [hopcode, operandCount_opcode] at hone
  refine exec_of_badRegister (badRegister?_of_first_large (tail := i.operands.tail) ?_ hbad)
  rw [← Nat.add_zero (s.pc.toNat + 1), ← hbytes 0 hone, List.getElem_zero, List.cons_head_tail]

/-- ADD, MUL and CMP have their opcodes, and both operand bytes are register fields. -/
theorem exists_twoRegister_instr {op : Byte} (h : op = 0xA0 ∨ op = 0xA2 ∨ op = 0xA7) (a b : Byte) :
    ∃ i : Instr, i.opcode = op ∧ i.operands = [a, b] ∧ i.regFields = [a, b] ∧ ∀ s, ContinuesSequentially s i := by
  obtain rfl | rfl | rfl := h
  · exact ⟨.add a b, rfl, rfl, rfl, fun _ => trivial⟩
  · exact ⟨.mul a b, rfl, rfl, rfl, fun _ => trivial⟩
  · exact ⟨.cmp a b, rfl, rfl, rfl, fun _ => trivial⟩

/-- The instructions with one register field that continue sequentially in `s` have these opcodes. -/
theorem exists_oneRegister_instr {s : State} {op : Byte} (h : op = 0x45 ∨ op = 0x46 ∨ op = 0x47 ∨
      (op = 0x55 ∧ s.fl ≠ 1) ∨ (op = 0x56 ∧ s.fl = 1)) (a : Byte) :
    ∃ i : Instr, i.opcode = op ∧ i.operands = [a] ∧ i.regFields = [a] ∧ ContinuesSequentially s i := by
  obtain rfl | rfl | rfl | ⟨rfl, hfl⟩ | ⟨rfl, hfl⟩ := h
  · exact ⟨.push a, rfl, rfl, rfl, trivial⟩
  · exact ⟨.pop a, rfl, rfl, rfl, trivial⟩
  · exact ⟨.prn a, rfl, rfl, rfl, trivial⟩
  · exact ⟨.jeq a, rfl, rfl, rfl, hfl⟩
  · exact ⟨.jne a, rfl, rfl, rfl, hfl⟩

section
variable {s : State} {i : Instr} {a b : Byte}

/-- A good register byte at 255, and the next address is 256. -/
theorem step_one_operand_at_254 (hrun : s.run = .running) (hop : s.mem.read s.pc.toNat = i.opcode)
    (hoperands : i.operands = [a]) (ha : s.mem.read (s.pc.toNat + 1) = a) (hfields : i.regFields = [a])
    (hi : ChecksNextAddress s i) (hpc : s.pc.toNat = 254) (hgood : a.toNat ≤ 7) :
    step s = .next (faulted s 1 256) := by
  have hholds : HoldsAtPc s i := holdsAtPc_of_one_operand hop hoperands ha (by omega)
  refine hholds.step_next_past hrun (wellFormed_of_regFields_all_le ?_) hi ?_
  · simpa [hfields] using hgood
  · rw [hoperands, nextPc, hpc]
    rfl

/-- Two operand bytes at 254 and 255, with good register bytes among them, and the next address is 256. -/
theorem step_two_operands_at_253 (hrun : s.run = .running) (hop : s.mem.read s.pc.toNat = i.opcode)
    (hoperands : i.operands = [a, b]) (ha : s.mem.read (s.pc.toNat + 1) = a) (hb : s.mem.read (s.pc.toNat + 2) = b)
    (hgood : ∀ f ∈ i.regFields, f.toNat ≤ 7) (hi : ContinuesSequentially s i) (hpc : s.pc.toNat = 253) :
    step s = .next (faulted s 1 256) := by
  have hholds : HoldsAtPc s i := holdsAtPc_of_two_operands hop hoperands ha hb (by omega)
  refine hholds.step_next_past hrun (wellFormed_of_regFields_all_le hgood) (.inl hi) ?_
  rw [hoperands, nextPc, hpc]
  rfl

end

/-! ### The obligations -/

/-- Settles O9: an instruction with a bad register byte cannot complete, and the first such byte is what it raises. -/
theorem registerByteAboveSevenFaults : Obligations.RegisterByteAboveSevenFaults :=
  fun _ _ _ => exec_of_badRegister

/-- Settles O11: of an instruction that checks its next address, the check decides whether it completes. -/
theorem sequentialAdvanceIsChecked : Obligations.SequentialAdvanceIsChecked := by
  intro s i hwf hseq
  rw [operandCount_opcode]
  constructor
  · intro hin
    obtain ⟨t, ht, hcompletes⟩ := exec_of_next_within hwf hin
    have hne : i ≠ .hlt := by
      rintro rfl
      exact hseq
    refine ⟨t, ht, ?_, hcompletes.status hne⟩
    rw [hcompletes.sequential_pc hseq, BitVec.toNat_ofNat]
    exact Nat.mod_eq_of_lt (Nat.lt_succ_of_le hin)
  · exact exec_of_next_past hwf (.inl hseq)

/-- Settles O12: the step is an instruction whose checks all pass. -/
theorem wellFormedInstructionNeverFaults : Obligations.WellFormedInstructionNeverFaults := by
  intro s i rest hrun hdecode hwf hin
  have hnext : nextPc s i.operands.length ≤ 255 := by
    simp only [encode, List.length_cons] at hin
    unfold nextPc
    omega
  obtain ⟨t, ht, hcompletes⟩ := exec_of_next_within hwf hnext
  exact ⟨t, ((holdsAtPc_of_decode hdecode).step_eq hrun).trans ht, hcompletes.record⟩

/-- Settles O6: a running step raises, completes a HLT, or completes another instruction, which keeps `RUN`. -/
theorem stepEndsInOneOfThreeWays : Obligations.StepEndsInOneOfThreeWays := by
  refine ⟨fun s hrun hclean => ?_, fun s => step_halted⟩
  obtain ⟨r, -, hstep⟩ | ⟨i, t, ⟨hop, -, -⟩, hcompletes, hstep⟩ := step_running_ends hrun
  · have hcode : r.cause.code ≠ 0 := by cases r.cause <;> decide
    exact ⟨_, hstep, .inr (.inr ⟨rfl, hcode⟩)⟩
  · refine ⟨t, hstep, ?_⟩
    by_cases hhlt : i = .hlt
    · subst hhlt
      cases hcompletes
      exact .inr (.inl ⟨hop, rfl⟩)
    · obtain ⟨hrun', hcause, -, -⟩ := hcompletes.status hhlt
      exact .inl ⟨hrun'.trans hrun, hcause.trans hclean⟩

/-- Settles O10, clause by clause: the fetch raises first, then the first bad register byte, then the check of the
next address. -/
theorem faultPriorityOrder : Obligations.FaultPriorityOrder := by
  rintro s _ a b hrun rfl ha hb
  refine ⟨step_unknownOpcode hrun, step_operandFetchPast hrun, fun hop hone hin hbad => ?_,
    fun hop hin hgood hbad => ?_, fun hop hpc hgood => ?_, fun hop hpc hgood => ?_, fun hop hpc hgood => ?_⟩
  · subst ha
    exact step_of_first_operand_large hrun hop hone hin hbad
  · obtain ⟨i, hi, hoperands, hfields, -⟩ := exists_twoRegister_instr hop a b
    have hholds : HoldsAtPc s i := holdsAtPc_of_two_operands hi.symm hoperands ha hb hin
    rw [hholds.step_eq hrun]
    exact exec_of_badRegister (by simp [badRegister?, hfields, hbad, Nat.not_le.mpr (Nat.lt_succ_of_le hgood)])
  · exact step_one_operand_at_254 (i := .call a) hrun hop rfl ha rfl (.inr ⟨a, rfl⟩) hpc hgood
  · obtain ⟨i, hi, hoperands, hfields, hseq⟩ := exists_oneRegister_instr hop a
    exact step_one_operand_at_254 hrun hi.symm hoperands ha hfields (.inl hseq) hpc hgood
  · obtain hop | ⟨hop, hgood'⟩ := hop
    · have hregister : ∀ f ∈ (Instr.ldi a b).regFields, f.toNat ≤ 7 := by simpa [Instr.regFields] using hgood
      exact step_two_operands_at_253 (i := .ldi a b) hrun hop rfl ha hb hregister trivial hpc
    · obtain ⟨i, hi, hoperands, hfields, hseq⟩ := exists_twoRegister_instr hop a b
      exact step_two_operands_at_253 hrun hi.symm hoperands ha hb (by simp [hfields, hgood, hgood']) (hseq s) hpc

end Sys2Proof.Machine

/-! PROOF. Scope: what each instruction leaves unchanged (R36), and that none reads the fault record (R31). -/

namespace Sys2Proof.Machine

/-! ### The frame of an instruction that completes -/

/-- The registers that instruction `i` may write (R36). -/
def writtenRegs : Instr → List Nat
  | .ldi a _ => [a.toNat]
  | .add a _ => [a.toNat]
  | .mul a _ => [a.toNat]
  | .push _ => [7]
  | .call _ => [7]
  | .ret => [7]
  | .pop a => [a.toNat, 7]
  | .hlt => []
  | .prn _ => []
  | .jmp _ => []
  | .jeq _ => []
  | .jne _ => []
  | .cmp _ _ => []

/-- PUSH and CALL, the instructions that store to memory (R36). -/
def stores : Instr → Bool
  | .push _ => true
  | .call _ => true
  | _ => false

theorem reg_of_regs_set {s t : State} {ra : RegIdx} {v : Byte} (h : t.regs = s.regs.set ra v) (r : RegIdx) :
    t.reg r = if ra = r then v else s.reg r := by
  rw [← State.reg_setReg]
  exact congrArg (fun regs : Vector Byte 8 => regs[r]) h

theorem sameRegs_of_regs_set {s t : State} {ra : RegIdx} {v : Byte} (h : t.regs = s.regs.set ra v) :
    SameRegsExcept [ra.val] s t := by
  intro r hr
  rw [reg_of_regs_set h, if_neg]
  rintro rfl
  exact hr (List.mem_singleton_self _)

theorem afterPop_reg (s : State) (ra r : RegIdx) : (afterPop s ra).reg r =
    if 7 = r then (s.setReg ra (s.mem.read (s.reg 7).toNat)).reg 7 + 1
    else if ra = r then s.mem.read (s.reg 7).toNat else s.reg r := by
  have hreg : (afterPop s ra).reg r = (s.setReg ra (s.mem.read (s.reg 7).toNat)).incSp.reg r := by
    rw [incSp_setReg]
    rfl
  rw [hreg, incSp_eq, State.reg_setReg, ← State.reg_setReg s ra r]
  rfl

theorem Completes.sameRegs {s t : State} {i : Instr} (h : Completes s i t) : SameRegsExcept (writtenRegs i) s t := by
  cases h with
  | ret => exact sameRegs_of_regs_set (ra := 7) rfl
  | push ra => exact sameRegs_of_regs_set (ra := 7) (t := afterPush s ra) rfl
  | call ra => exact sameRegs_of_regs_set (ra := 7) (t := afterCall s ra) rfl
  | pop ra =>
    intro r hr
    rw [afterPop_reg, if_neg, if_neg]
    · rintro rfl
      simp [writtenRegs] at hr
    · rintro rfl
      simp [writtenRegs] at hr
  | ldi ra imm | add ra rb | mul ra rb =>
    simp only [writtenRegs, regByte_toNat]
    exact sameRegs_of_regs_set rfl
  | hlt | prn | jmp | jeqTaken | jeqNext | jneTaken | jneNext | cmp => exact fun _ _ => rfl

theorem Completes.mem_eq {s t : State} {i : Instr} (h : Completes s i t) (hi : stores i = false) : t.mem = s.mem := by
  cases h with
  | push | call => cases hi
  | _ => rfl

theorem pushAddress_eq_dec (s : State) : pushAddress s = (s.reg 7 - 1).toNat := pushAddress_eq s

theorem Completes.mem_stored {s t : State} {i : Instr} (h : Completes s i t) (hi : stores i = true) :
    ∃ v, t.mem = s.mem.write (pushAddress s) v := by
  rw [pushAddress_eq_dec]
  cases h with
  | push | call => exact ⟨_, rfl⟩
  | _ => cases hi

/-! ### The frame of `exec`, completing or entering a fault -/

theorem faultEntered_takeFault (r : Raise) (s : State) : FaultEntered s (takeFault r s) := ⟨_, _, rfl⟩

theorem FaultEntered.sameRegs {s t : State} (h : FaultEntered s t) (written : List Nat) :
    SameRegsExcept written s t := by
  obtain ⟨code, info, rfl⟩ := h
  exact fun _ _ => rfl

theorem FaultEntered.sameMemory {s t : State} (h : FaultEntered s t) : SameMemory s t := by
  obtain ⟨code, info, rfl⟩ := h
  exact fun _ => rfl

section
variable {s t : State} {i : Instr}

theorem exec_completes_or_faults (h : exec i s = .next t) : Completes s i t ∨ FaultEntered s t := by
  obtain hcompletes | ⟨r, -, rfl⟩ := exec_cases h
  · exact .inl hcompletes
  · exact .inr (faultEntered_takeFault r s)

theorem exec_sameRegs (h : exec i s = .next t) : SameRegsExcept (writtenRegs i) s t := by
  obtain hcompletes | hfault := exec_completes_or_faults h
  · exact hcompletes.sameRegs
  · exact hfault.sameRegs _

theorem exec_sameMemory (hi : stores i = false) (h : exec i s = .next t) : SameMemory s t := by
  obtain hcompletes | hfault := exec_completes_or_faults h
  · intro addr
    rw [hcompletes.mem_eq hi]
  · exact hfault.sameMemory

theorem exec_status (hi : i ≠ .hlt) (h : exec i s = .next t) : StatusUnchanged s t ∨ FaultEntered s t :=
  (exec_completes_or_faults h).imp_left fun hcompletes => hcompletes.status hi

/-- The instructions that write nothing but registers and `pc`. -/
def writesRegsOnly : Instr → Bool
  | .hlt => false
  | .cmp _ _ => false
  | .prn _ => false
  | .push _ => false
  | .call _ => false
  | _ => true

theorem exec_frame_of_writesRegsOnly (hi : writesRegsOnly i = true) (h : exec i s = .next t) :
    SameRegsExcept (writtenRegs i) s t ∧ t.fl = s.fl ∧ SameMemory s t ∧ t.out = s.out ∧
      (StatusUnchanged s t ∨ FaultEntered s t) := by
  have hcmp : ∀ a b, i ≠ .cmp a b := by rintro a b rfl; cases hi
  have hprn : ∀ a, i ≠ .prn a := by rintro a rfl; cases hi
  have hhlt : i ≠ .hlt := by rintro rfl; cases hi
  have hstores : stores i = false := by
    cases i with
    | push a | call a => cases hi
    | _ => rfl
  exact ⟨exec_sameRegs h, exec_fl_of_ne_cmp hcmp h, exec_sameMemory hstores h, exec_out_of_ne_prn hprn h,
    exec_status hhlt h⟩

/-- PUSH and CALL store at the push address, or fault and store nothing. -/
theorem exec_frame_of_stores (hi : stores i = true) (h : exec i s = .next t) :
    SameRegsExcept [7] s t ∧ t.fl = s.fl ∧ t.out = s.out ∧
      (∀ addr, pushAddress s = addr → ∀ other, other ≠ addr → t.mem.read other = s.mem.read other) ∧
      (StatusUnchanged s t ∨ (FaultEntered s t ∧ SameMemory s t ∧ SameRegsExcept [] s t)) := by
  have hcmp : ∀ a b, i ≠ .cmp a b := by rintro a b rfl; cases hi
  have hprn : ∀ a, i ≠ .prn a := by rintro a rfl; cases hi
  have hhlt : i ≠ .hlt := by rintro rfl; cases hi
  have hregs : writtenRegs i = [7] := by
    cases i with
    | push a | call a => rfl
    | _ => cases hi
  have hfl := exec_fl_of_ne_cmp hcmp h
  have hout := exec_out_of_ne_prn hprn h
  obtain hcompletes | hfault := exec_completes_or_faults h
  · obtain ⟨v, hmem⟩ := hcompletes.mem_stored hi
    refine ⟨hregs ▸ hcompletes.sameRegs, hfl, hout, ?_, .inl (hcompletes.status hhlt)⟩
    rintro _ rfl other hother
    rw [hmem, Memory.read_write_other _ _ hother]
  · exact ⟨hfault.sameRegs _, hfl, hout, fun _ _ other _ => hfault.sameMemory other,
      .inr ⟨hfault, hfault.sameMemory, hfault.sameRegs _⟩⟩

end

/-! ### The fault record -/

/-- Only a fault entry of an instruction writes the record. -/
theorem exec_record {s t : State} {i : Instr} (h : exec i s = .next t) :
    (t.fcause = s.fcause ∧ t.fpc = s.fpc ∧ t.finfo = s.finfo) ∨ FaultEntered s t :=
  (exec_completes_or_faults h).imp_left Completes.record

theorem step_record {s t : State} (h : step s = .next t) :
    (t.fcause = s.fcause ∧ t.fpc = s.fpc ∧ t.finfo = s.finfo) ∨ FaultEntered s t := by
  cases hrun : s.run with
  | halted =>
    obtain rfl := Host.Outcome.next.inj ((step_halted hrun).symm.trans h)
    exact .inl ⟨rfl, rfl, rfl⟩
  | running =>
    obtain ⟨r, -, rfl⟩ | ⟨i, -, hexec⟩ := step_running_cases hrun h
    · exact .inr (faultEntered_takeFault r s)
    · exact exec_record hexec

/-- An instruction does the same whatever the fault record holds: the record is part of the status that
`exec_next_cases` replaces. -/
theorem exec_withRecord {s t : State} {i : Instr} (c p : Byte) (f : BitVec 9) (h : exec i s = .next t) :
    ∃ c' p' f', exec i { s with fcause := c, fpc := p, finfo := f } =
      .next { t with fcause := c', fpc := p', finfo := f' } := by
  have htest : SameJumpTest i s s.fl := fun _ => Iff.rfl
  by_cases hhlt : i = .hlt
  · subst hhlt
    rw [exec_hlt h]
    exact ⟨c, p, f, rfl⟩
  · obtain ⟨r, rfl, hfault⟩ | ⟨hstatus, hfl, hdone⟩ := exec_next_cases hhlt h
    · exact ⟨_, _, _, hfault s.fl ⟨s.run, c, p, f⟩ htest⟩
    · have hrun : t.run = s.run := congrArg Status.run hstatus
      have hsame : t.relabel (flAfter s.fl i t) ⟨s.run, c, p, f⟩ = { t with fcause := c, fpc := p, finfo := f } := by
        rw [← hfl, ← hrun]
        rfl
      exact ⟨c, p, f, hsame ▸ hdone s.fl ⟨s.run, c, p, f⟩ htest⟩

/-! ### The obligations -/

/-- Settles O26: LDI, ADD and MUL write register `a` and `pc`. -/
theorem registerDestinationFrame : Obligations.RegisterDestinationFrame := by
  rintro s t a b i (rfl | rfl | rfl) h
  all_goals exact exec_frame_of_writesRegsOnly rfl h

/-- Settles O27: neither CMP nor PRN writes a register or memory. -/
theorem compareAndPrintFrame : Obligations.CompareAndPrintFrame := by
  constructor
  · intro s t a b h
    exact ⟨exec_sameRegs h, exec_sameMemory rfl h, exec_out_of_ne_prn (by simp) h, exec_status (by simp) h⟩
  · intro s t a h
    exact ⟨exec_sameRegs h, exec_fl_of_ne_cmp (by simp) h, exec_sameMemory rfl h, exec_status (by simp) h⟩

/-- Settles O28: the one store of PUSH and CALL is at the push address. -/
theorem stackStoreFrame : Obligations.StackStoreFrame := by
  rintro s t a i (rfl | rfl) h
  all_goals exact exec_frame_of_stores rfl h

/-- Settles O29: POP and RET read memory and write registers. RET checks nothing, so it has no fault to enter. -/
theorem stackLoadFrame : Obligations.StackLoadFrame := by
  refine ⟨fun s t a h => exec_frame_of_writesRegsOnly rfl h, fun s t h => ?_⟩
  obtain ⟨hregs, hfl, hmem, hout, -⟩ := exec_frame_of_writesRegsOnly (i := .ret) rfl h
  obtain rfl := Host.Outcome.next.inj ((exec_ret s).symm.trans h)
  exact ⟨hregs, hfl, hmem, hout, rfl, rfl, rfl, rfl⟩

/-- Settles O30: a jump writes `pc`, and HLT writes `RUN`. -/
theorem jumpAndHaltFrame : Obligations.JumpAndHaltFrame := by
  constructor
  · rintro s t a i (rfl | rfl | rfl) h
    all_goals exact exec_frame_of_writesRegsOnly rfl h
  · intro s t h
    rw [exec_hlt h]
    exact ⟨fun _ _ => rfl, rfl, fun _ => rfl, rfl, rfl, rfl, rfl, rfl⟩

/-- Settles O33, by the cases of the request: only a failed load and a fault entry write the record. -/
theorem faultRecordIsPrivate : Obligations.FaultRecordIsPrivate := by
  refine ⟨fun s t q h hreset => ?_, fun s t i c p f => exec_withRecord c p f⟩
  cases q with
  | reset => exact absurd rfl hreset
  | load r =>
    obtain rfl := Host.Outcome.next.inj h
    obtain hload | ⟨-, ⟨bytes, hload⟩ | hload⟩ := hostLoad_cases r s <;> rw [hload]
    · exact .inl ⟨rfl, rfl, rfl⟩
    · exact .inl ⟨rfl, rfl, rfl⟩
    · exact .inr (.inr ⟨⟨r, rfl⟩, rfl⟩)
  | start =>
    obtain rfl := Host.Outcome.next.inj h
    obtain hstart | ⟨-, hstart⟩ := hostStart_cases s <;> rw [hstart] <;> exact .inl ⟨rfl, rfl, rfl⟩
  | stepGrant => exact (step_record h).imp_right fun hfault => .inl ⟨rfl, hfault⟩

end Sys2Proof.Machine

/-! PROOF. Scope: two instructions together: JEQ with JNE (R104), CALL with RET (source property S3), PUSH with POP
(S2), and a store with the fetch of the byte stored (R51). -/

namespace Sys2Proof.Machine

/-! ### The states that PUSH and CALL leave -/

theorem toNat_ofNat_of_le_255 {n : Nat} (h : n ≤ 255) : (BitVec.ofNat 8 n).toNat = n := by
  rw [BitVec.toNat_ofNat]
  exact Nat.mod_eq_of_lt (Nat.lt_succ_of_le h)

theorem afterPush_reg (s : State) (ra r : RegIdx) :
    (afterPush s ra).reg r = if 7 = r then s.reg 7 - 1 else s.reg r := reg_of_regs_set rfl r

theorem afterCall_reg (s : State) (ra r : RegIdx) :
    (afterCall s ra).reg r = if 7 = r then s.reg 7 - 1 else s.reg r := reg_of_regs_set rfl r

/-- The byte at `SP` after a PUSH is the one pushed. -/
theorem afterPush_top (s : State) (ra : RegIdx) : (afterPush s ra).mem.read ((afterPush s ra).reg 7).toNat =
    if ra = 7 then s.reg 7 - 1 else s.reg ra := by
  rw [afterPush_reg, if_pos rfl]
  exact Memory.read_write_same _ _ _

/-- The byte at `SP` after a CALL is the return address. -/
theorem afterCall_top (s : State) (ra : RegIdx) : (afterCall s ra).mem.read ((afterCall s ra).reg 7).toNat =
    BitVec.ofNat 8 (s.pc.toNat + 2) := by
  rw [afterCall_reg, if_pos rfl]
  exact Memory.read_write_same _ _ _

/-! ### A store that is fetched next -/

/-- A running core at a byte `v` that is undefined, or HLT's. -/
theorem step_at_byte {t : State} {v : Byte} (hrun : t.run = .running) (hv : t.mem.read t.pc.toNat = v) :
    (isOpcode v = false → step t = .next (faulted t 3 v.toNat)) ∧
      (v = 0x01 → step t = .next { t with run := .halted }) := by
  subst hv
  exact ⟨step_unknownOpcode hrun, step_hlt hrun⟩

/-! ### The obligations -/

/-- Settles O36: with one `FL`, exactly one of the two jumps is taken. -/
theorem jeqAndJneGoOppositeWays : Obligations.JeqAndJneGoOppositeWays := by
  intro s ra hin
  obtain ⟨hjeq, -⟩ := jeqJumpsWhenEqual
  obtain ⟨hjne, -⟩ := jneJumpsWhenNotEqual
  obtain ⟨hjeqTaken, hjeqNext, -⟩ := hjeq s ra
  obtain ⟨hjneTaken, hjneNext, -⟩ := hjne s ra
  by_cases hfl : s.fl = 0x01
  · exact ⟨_, _, hjeqTaken hfl, hjneNext hfl hin, .inl ⟨rfl, toNat_ofNat_of_le_255 hin⟩⟩
  · exact ⟨_, _, hjeqNext hfl hin, hjneTaken hfl, .inr ⟨toNat_ofNat_of_le_255 hin, rfl⟩⟩

/-- Settles O37: RET finds the return address at `SP` and undoes the decrement. -/
theorem retUndoesCall : Obligations.RetUndoesCall := by
  intro s ra hin
  refine ⟨_, _, checksOneRegister_call.exec_within s ra hin, exec_ret _, ?_, fun r => ?_⟩
  · rw [afterCall_top]
    exact toNat_ofNat_of_le_255 hin
  · rw [reg_of_regs_set (s := afterCall s ra) (ra := 7) rfl, afterCall_reg, afterCall_reg, if_pos rfl, sub_add_cancel]
    by_cases hr : 7 = r
    · rw [if_pos hr, hr]
    · rw [if_neg hr, if_neg hr]

/-- Settles O38: POP finds the pushed register at `SP` and undoes the decrement. -/
theorem popUndoesPush : Obligations.PopUndoesPush := by
  intro s ra rb hra hrb hin
  have hpush : (afterPush s ra).pc.toNat = s.pc.toNat + 2 := toNat_ofNat_of_le_255 (by omega)
  have hpop : nextPc (afterPush s ra) 1 ≤ 255 := by
    rw [nextPc, hpush]
    omega
  have hsp : (afterPop (afterPush s ra) rb).reg 7 = s.reg 7 := by
    rw [afterPop_reg, if_pos rfl, State.reg_setReg_other _ _ _ _ hrb, afterPush_reg, if_pos rfl, sub_add_cancel]
  refine ⟨_, _, checksOneRegister_push.exec_within s ra ?_, checksOneRegister_pop.exec_within _ rb hpop, ?_, hsp, ?_⟩
  · rw [nextPc]
    omega
  · rw [afterPop_reg, if_neg hrb.symm, if_pos rfl, afterPush_top, if_neg hra]
  · intro r hr
    by_cases h7 : 7 = r
    · rw [← h7, hsp]
    · rw [afterPop_reg, if_neg h7, if_neg hr.symm, afterPush_reg, if_neg h7]

/-- Settles O41: the byte at the push address is the byte stored, and the next step fetches it from there. -/
theorem nextFetchSeesTheStoredByte : Obligations.NextFetchSeesTheStoredByte := by
  intro s t i ra v hrun hin hi hexec hpush
  have hstored : t.run = s.run ∧ t.mem.read (pushAddress s) = v := by
    rw [pushAddress_eq_dec]
    obtain ⟨rfl, rfl⟩ | ⟨rfl, rfl⟩ := hi
    · obtain rfl := Host.Outcome.next.inj ((checksOneRegister_push.exec_within s ra hin).symm.trans hexec)
      exact ⟨rfl, Memory.read_write_same _ _ _⟩
    · obtain rfl := Host.Outcome.next.inj ((checksOneRegister_call.exec_within s ra hin).symm.trans hexec)
      exact ⟨rfl, Memory.read_write_same _ _ _⟩
  obtain ⟨hkept, hread⟩ := hstored
  exact step_at_byte (hkept.trans hrun) (hpush ▸ hread)

end Sys2Proof.Machine

/-! PROOF. Scope: the invariant of a state, kept by every step and every host request (R26, R39, R107 to R109). -/

namespace Sys2Proof.Machine

/-! ### A clean record -/

/-- No fault recorded means a record as reset leaves it. -/
def CleanRecord (s : State) : Prop := s.fcause = 0 ∧ s.fpc = 0 ∧ s.finfo = 0

theorem LegalRecord.clean {s : State} (h : LegalRecord s) (hcause : s.fcause = 0) : CleanRecord s := by
  obtain hclean | ⟨hcode, -⟩ | ⟨hcode, -⟩ | ⟨hcode, -⟩ | ⟨hcode, -⟩ := h
  · exact hclean
  all_goals exact absurd (hcause.symm.trans hcode) (by decide)

/-- With a clean record, only memory and `FL` are left to check. -/
theorem inv_of_clean {s : State} (hmem : s.mem.wf = true) (hfl : s.fl.toNat ≤ 3) (hclean : CleanRecord s) : Inv s :=
  ⟨hmem, hfl, fun _ => hclean.1, .inl hclean⟩

/-! ### Instructions that complete -/

theorem compareCode_le_three (x y : Byte) : (compareCode x y).toNat ≤ 3 := by
  obtain ⟨-, hcode⟩ | ⟨-, hcode⟩ | ⟨-, hcode⟩ := compareCode_cases x y <;> rw [hcode] <;> decide

theorem Completes.fl_le_three {s t : State} {i : Instr} (h : Completes s i t) (hfl : s.fl.toNat ≤ 3) :
    t.fl.toNat ≤ 3 := by
  cases h with
  | cmp ra rb => exact compareCode_le_three (s.reg ra) (s.reg rb)
  | _ => exact hfl

theorem Completes.mem_wf {s t : State} {i : Instr} (h : Completes s i t) (hmem : s.mem.wf = true) :
    t.mem.wf = true := by
  cases hi : stores i with
  | false => rwa [h.mem_eq hi]
  | true =>
    obtain ⟨v, hstored⟩ := h.mem_stored hi
    rw [hstored]
    exact Memory.wf_write s.mem v hmem (byte_isAddress _)

theorem Completes.inv {s t : State} {i : Instr} (h : Completes s i t) (hs : Inv s) (hrun : s.run = .running) :
    Inv t := by
  obtain ⟨hmem, hfl, hrunning, hlegal⟩ := hs
  obtain ⟨hcause, hfpc, hfinfo⟩ := hlegal.clean (hrunning hrun)
  obtain ⟨hcause', hfpc', hfinfo'⟩ := h.record
  exact inv_of_clean (h.mem_wf hmem) (h.fl_le_three hfl)
    ⟨hcause'.trans hcause, hfpc'.trans hfpc, hfinfo'.trans hfinfo⟩

/-! ### Faults of a step -/

/-- `FINFO` holds a byte whole. -/
theorem finfo_toNat_of_byte (b : Byte) : (BitVec.ofNat 9 b.toNat).toNat = b.toNat := by
  have hb : b.toNat < 256 := b.isLt
  rw [BitVec.toNat_ofNat]
  omega

/-- What a step can raise is what a legal record can hold. -/
theorem StepRaises.legalRecord {s : State} {r : Raise} (h : StepRaises s r) : LegalRecord (takeFault r s) := by
  cases h with
  | address hpc => exact .inr (.inl ⟨rfl, rfl, rfl, hpc⟩)
  | @register f hbad =>
    have hinfo : (takeFault (raiseRegister f) s).finfo.toNat = f.toNat := finfo_toNat_of_byte f
    have hf : f.toNat < 256 := f.isLt
    exact .inr (.inr (.inl ⟨rfl, rfl, by omega, by omega⟩))
  | opcode hop => exact .inr (.inr (.inr (.inl ⟨rfl, rfl, (finfo_toNat_of_byte _).symm, hop⟩)))

theorem StepRaises.inv {s : State} {r : Raise} (h : StepRaises s r) (hs : Inv s) : Inv (takeFault r s) :=
  ⟨hs.mem_wf, hs.fl_code, nofun, h.legalRecord⟩

/-! ### Steps and host requests -/

theorem step_inv {s : State} (hs : Inv s) : ∃ t, step s = .next t ∧ Inv t := by
  cases hrun : s.run with
  | halted => exact ⟨s, step_halted hrun, hs⟩
  | running =>
    obtain ⟨r, hraises, hstep⟩ | ⟨i, t, -, hcompletes, hstep⟩ := step_running_ends hrun
    · exact ⟨_, hstep, hraises.inv hs⟩
    · exact ⟨t, hstep, hcompletes.inv hs hrun⟩

theorem hostReset_inv (s : State) : Inv (hostReset s) := inv_of_clean rfl (Nat.zero_le 3) ⟨rfl, rfl, rfl⟩

/-- Load is accepted only with a clean record, in Halted. -/
theorem hostLoad_inv (r : LoadRequest) {s : State} (hs : Inv s) : Inv (hostLoad r s) := by
  have hmem := hostLoad_mem_wf r s hs.mem_wf
  obtain hload | ⟨⟨hrun, hcause⟩, ⟨bytes, hload⟩ | hload⟩ := hostLoad_cases r s <;> rw [hload] at hmem ⊢
  · exact hs
  · exact inv_of_clean hmem hs.fl_code (hs.record_legal.clean hcause)
  · exact ⟨hmem, hs.fl_code, fun hrunning => by simp [recordLoadError, hrun] at hrunning,
      .inr (.inr (.inr (.inr ⟨rfl, rfl, rfl⟩)))⟩

/-- Start is accepted only with a clean record. -/
theorem hostStart_inv {s : State} (hs : Inv s) : Inv (hostStart s) := by
  obtain hstart | ⟨⟨-, hcause⟩, hstart⟩ := hostStart_cases s <;> rw [hstart]
  · exact hs
  · exact inv_of_clean hs.mem_wf hs.fl_code (hs.record_legal.clean hcause)

theorem serve_inv (q : HostRequest) {s : State} (hs : Inv s) : ∃ t, serve q s = .next t ∧ Inv t := by
  cases q with
  | reset => exact ⟨_, rfl, hostReset_inv s⟩
  | load r => exact ⟨_, rfl, hostLoad_inv r hs⟩
  | start => exact ⟨_, rfl, hostStart_inv hs⟩
  | stepGrant => exact step_inv hs

/-! ### The obligations -/

/-- Settles O45: a step completes an instruction, which keeps a clean record, or raises what a legal record holds. -/
theorem stepKeepsTheInvariant : Obligations.StepKeepsTheInvariant := fun _ => step_inv

/-- Settles O44: the reset value has a clean record and an empty memory. -/
theorem resetSatisfiesTheInvariant : Obligations.ResetSatisfiesTheInvariant := hostReset_inv State.reset

/-- Settles O46: load and start are accepted only with no fault recorded. -/
theorem hostRequestsKeepTheInvariant : Obligations.HostRequestsKeepTheInvariant := fun _ q hs _ => serve_inv q hs

/-- Settles O47, by induction on the requests. -/
theorem everyRequestSequenceIsServed : Obligations.EveryRequestSequenceIsServed := by
  intro s qs hs
  induction qs generalizing s with
  | nil => exact ⟨s, rfl, hs⟩
  | cons q qs ih =>
    obtain ⟨t, ht, hinv⟩ := serve_inv q hs
    rw [serveAll_cons_of_next qs ht]
    exact ih t hinv

end Sys2Proof.Machine

/-! PROOF. Scope: the host's load and start, accepted and ignored (R123 to R126). -/

namespace Sys2Proof.Machine

theorem serve_load_of_image_fits {s : State} {img : List Byte} (hrun : s.run = .halted) (hcause : s.fcause = 0)
    (hfit : img.length ≤ Config.memSize) :
    serve (.load (.image img)) s = .next { s with mem := s.mem.writeBytes 0 img } := by
  rw [serve, hostLoad_accepted _ hrun hcause]
  exact congrArg Host.Outcome.next (if_pos hfit)

theorem serve_load_of_fails {s : State} {r : LoadRequest} (hrun : s.run = .halted) (hcause : s.fcause = 0)
    (hfails : r = .malformed ∨ ∃ img, r = .image img ∧ 256 < img.length) :
    serve (.load r) s = .next (recordLoadError s) := by
  rw [serve, hostLoad_accepted r hrun hcause]
  obtain rfl | ⟨img, rfl, hlarge⟩ := hfails
  · rfl
  · exact congrArg Host.Outcome.next (if_neg (Nat.not_le.mpr hlarge))

/-- Fetching reads memory and `pc` only. -/
theorem fetchInstr_withRun (s : State) (run : RunState) : fetchInstr { s with run := run } = fetchInstr s := rfl

/-! ### The obligations -/

/-- Settles O49: the image fits, so placing its bytes puts byte `i` in cell `i`. -/
theorem loadWritesTheImageFromZero : Obligations.LoadWritesTheImageFromZero := by
  intro s img hrun hcause hfit
  refine ⟨_, serve_load_of_image_fits hrun hcause hfit, fun i hi => ?_, fun addr haddr => ?_⟩
  · have hread := Memory.read_writeBytes_inside s.mem 0 img i hi (by rwa [Nat.zero_add])
    rwa [Nat.zero_add] at hread
  · exact Memory.read_writeBytes_outside s.mem 0 img (.inr (by rwa [Nat.zero_add]))

/-- Settles O50: the recorded LoadError is what makes the core ignore a start. -/
theorem failedLoadRecordsLoadError : Obligations.FailedLoadRecordsLoadError := by
  intro s r hrun hcause hfails
  have hignored : ¬((recordLoadError s).run = .halted ∧ (recordLoadError s).fcause = 0) := by
    simp [recordLoadError, Cause.code]
  exact ⟨recordLoadError s, serve_load_of_fails hrun hcause hfails, rfl,
    congrArg Host.Outcome.next (hostStart_ignored hignored)⟩

/-- Settles O51: start leaves memory and `pc`, so the step after it fetches what the halted core would have. -/
theorem startResumesAtTheCurrentPc : Obligations.StartResumesAtTheCurrentPc := by
  intro s hrun hcause
  have hstart : serve .start s = .next { s with run := .running } :=
    congrArg Host.Outcome.next (hostStart_accepted hrun hcause)
  refine ⟨hstart, fun i hfetch => ?_⟩
  have hstep : serve .stepGrant { s with run := .running } = exec i { s with run := .running } := by
    rw [serve, step_running rfl, fetchInstr_withRun, hfetch]
  obtain ⟨t, ht, -⟩ := exec_ends { s with run := .running } i
  rw [serveAll_cons_of_next _ hstart, serveAll_cons_of_next _ (hstep.trans ht), ht]
  rfl

/-- Settles O52, by the cases of the request: each asks for a state that is not there. -/
theorem unacceptedRequestsAreIgnored : Obligations.UnacceptedRequestsAreIgnored := by
  intro s
  refine ⟨step_halted, fun hrun => ?_, fun hrun hcause q hreset => ?_⟩
  · have hrefused : ¬(s.run = .halted ∧ s.fcause = 0) := by simp [hrun]
    exact ⟨congrArg Host.Outcome.next (hostStart_ignored hrefused),
      fun r => congrArg Host.Outcome.next (hostLoad_ignored r hrefused)⟩
  · have hrefused : ¬(s.run = .halted ∧ s.fcause = 0) := fun h => hcause h.2
    cases q with
    | reset => exact absurd rfl hreset
    | load r => exact congrArg Host.Outcome.next (hostLoad_ignored r hrefused)
    | start => exact congrArg Host.Outcome.next (hostStart_ignored hrefused)
    | stepGrant => exact step_halted hrun

end Sys2Proof.Machine
